-- ==== Sys2Proof/Word.lean ====
section
/-! DEFINITION. Word.lean: the value types of the machine (00_scope.md R4, R5). -/

namespace Sys2Proof

/-- A general register, a timer or the unit at one memory address: 8 bits (R4, R30). -/
abbrev Byte := BitVec 8

/-- An instruction word, PC, I or a stack slot: 16 bits (R4). -/
abbrev Word := BitVec 16

/-- The address field `nnn` of an instruction: 12 bits (R46). -/
abbrev Addr := BitVec 12

/-- A register number, 0 to 15; no selector value is illegal (R10). -/
abbrev Reg := Fin 16

/-- The flag register VF, general register 15 (R11). -/
abbrev VF : Reg := 15

end Sys2Proof
end

