-- ==== Sys2Proof/Syntax.lean ====
section
/-! DEFINITION. Syntax.lean: the instructions, one constructor per row of spec/opcode_table.json, in the table's
order (30_encoding.md R51). A register selector is a `Reg`, the immediate `kk` and the address `nnn` are the bits
that move into registers, and the sprite height `n` is a count. -/

namespace Sys2Proof

/-- The 34 instructions of rule R51. The shifts keep the `y` field their meaning ignores (R52), so that an
instruction determines its word. -/
inductive Instr where
  | clearScreen
  | ret
  | jump (nnn : Addr)
  | call (nnn : Addr)
  | skipIfEqualImmediate (x : Reg) (kk : Byte)
  | skipIfNotEqualImmediate (x : Reg) (kk : Byte)
  | skipIfRegistersEqual (x y : Reg)
  | skipIfRegistersNotEqual (x y : Reg)
  | loadImmediate (x : Reg) (kk : Byte)
  | addImmediate (x : Reg) (kk : Byte)
  | copy (x y : Reg)
  | or (x y : Reg)
  | and (x y : Reg)
  | xor (x y : Reg)
  | addRegisters (x y : Reg)
  | subRegisters (x y : Reg)
  | shiftRight (x y : Reg)
  | subRegistersReverse (x y : Reg)
  | shiftLeft (x y : Reg)
  | setIndex (nnn : Addr)
  | jumpWithOffset (nnn : Addr)
  | randomAnd (x : Reg) (kk : Byte)
  | drawSprite (x y : Reg) (n : Nat)
  | skipIfKeyPressed (x : Reg)
  | skipIfKeyNotPressed (x : Reg)
  | loadDTIntoVX (x : Reg)
  | waitForKey (x : Reg)
  | setDTFromVX (x : Reg)
  | setSTFromVX (x : Reg)
  | addIndex (x : Reg)
  | setIndexToFontGlyph (x : Reg)
  | storeBCD (x : Reg)
  | storeRegistersRange (x : Reg)
  | loadRegistersRange (x : Reg)
  deriving DecidableEq, Repr

end Sys2Proof
end

