-- ==== Sys2Proof/WellFormed.lean ====
section
/-! DEFINITION. WellFormed.lean: which instructions have an encoding. The types of the operands already bound every
field of rule R46 but one: the sprite height `n` is a count held as a `Nat`, and its field is 4 bits wide. -/

namespace Sys2Proof

/-- An instruction is well formed when every operand fits its field (30_encoding.md R46, R48): the sprite height is
0 to 15; all sixteen register numbers, all `kk` and all `nnn` are legal. -/
def Instr.wf : Instr → Bool
  | .clearScreen => true
  | .ret => true
  | .jump _ => true
  | .call _ => true
  | .skipIfEqualImmediate _ _ => true
  | .skipIfNotEqualImmediate _ _ => true
  | .skipIfRegistersEqual _ _ => true
  | .skipIfRegistersNotEqual _ _ => true
  | .loadImmediate _ _ => true
  | .addImmediate _ _ => true
  | .copy _ _ => true
  | .or _ _ => true
  | .and _ _ => true
  | .xor _ _ => true
  | .addRegisters _ _ => true
  | .subRegisters _ _ => true
  | .shiftRight _ _ => true
  | .subRegistersReverse _ _ => true
  | .shiftLeft _ _ => true
  | .setIndex _ => true
  | .jumpWithOffset _ => true
  | .randomAnd _ _ => true
  | .drawSprite _ _ n => n < 16
  | .skipIfKeyPressed _ => true
  | .skipIfKeyNotPressed _ => true
  | .loadDTIntoVX _ => true
  | .waitForKey _ => true
  | .setDTFromVX _ => true
  | .setSTFromVX _ => true
  | .addIndex _ => true
  | .setIndexToFontGlyph _ => true
  | .storeBCD _ => true
  | .storeRegistersRange _ => true
  | .loadRegistersRange _ => true

end Sys2Proof
end

