-- ==== Sys2Proof/Decode.lean ====
section
/-! DEFINITION. Decode.lean: a word as two bytes (20_memory.md R34), the fields of an instruction word (30_encoding.md
R46), the two-level decoder (R49, strict as in R52), the encoder written from the formats of R47, and the opcode map of
R51 as a table of its own. -/

namespace Sys2Proof

/-- `hi` is `w[15:8]`, `lo` is `w[7:0]` (R34). -/
def Word.ofBytes (hi lo : Byte) : Word := hi ++ lo

/-- `w[15:8]`. -/
def Word.highByte (w : Word) : Byte := w.extractLsb' 8 8

/-- `w[7:0]`. -/
def Word.lowByte (w : Word) : Byte := w.extractLsb' 0 8

/-- `op = w[15:12]`, the family (R46). -/
def fieldOp (w : Word) : BitVec 4 := w.extractLsb' 12 4

/-- `x = w[11:8]`, the first register selector (R46). -/
def fieldX (w : Word) : Reg := Fin.ofNat 16 (w.extractLsb' 8 4).toNat

/-- `y = w[7:4]`, the second register selector (R46). -/
def fieldY (w : Word) : Reg := Fin.ofNat 16 (w.extractLsb' 4 4).toNat

/-- `n = w[3:0]`, the trailing nibble (R46). -/
def fieldN (w : Word) : Nat := (w.extractLsb' 0 4).toNat

/-- `kk = w[7:0]`, the immediate or the trailing byte (R46). -/
def fieldKK (w : Word) : Byte := w.extractLsb' 0 8

/-- `nnn = w[11:0]`, the address field (R46). -/
def fieldNNN (w : Word) : Addr := w.extractLsb' 0 12

/-- Family 0: all sixteen bits are compared (R49, R52). -/
def decodeFamily0 (w : Word) : Option Instr :=
  if w = 0x00E0 then some .clearScreen
  else if w = 0x00EE then some .ret
  else none

/-- Family 8: the secondary key is the trailing nibble, nine values of it defined (R49). -/
def decodeFamily8 (w : Word) : Option Instr :=
  match fieldN w with
  | 0x0 => some (.copy (fieldX w) (fieldY w))
  | 0x1 => some (.or (fieldX w) (fieldY w))
  | 0x2 => some (.and (fieldX w) (fieldY w))
  | 0x3 => some (.xor (fieldX w) (fieldY w))
  | 0x4 => some (.addRegisters (fieldX w) (fieldY w))
  | 0x5 => some (.subRegisters (fieldX w) (fieldY w))
  | 0x6 => some (.shiftRight (fieldX w) (fieldY w))
  | 0x7 => some (.subRegistersReverse (fieldX w) (fieldY w))
  | 0xE => some (.shiftLeft (fieldX w) (fieldY w))
  | _ => none

/-- Family E: the secondary key is the trailing byte (R49). -/
def decodeFamilyE (w : Word) : Option Instr :=
  match (fieldKK w).toNat with
  | 0x9E => some (.skipIfKeyPressed (fieldX w))
  | 0xA1 => some (.skipIfKeyNotPressed (fieldX w))
  | _ => none

/-- Family F: the secondary key is the trailing byte (R49). -/
def decodeFamilyF (w : Word) : Option Instr :=
  match (fieldKK w).toNat with
  | 0x07 => some (.loadDTIntoVX (fieldX w))
  | 0x0A => some (.waitForKey (fieldX w))
  | 0x15 => some (.setDTFromVX (fieldX w))
  | 0x18 => some (.setSTFromVX (fieldX w))
  | 0x1E => some (.addIndex (fieldX w))
  | 0x29 => some (.setIndexToFontGlyph (fieldX w))
  | 0x33 => some (.storeBCD (fieldX w))
  | 0x55 => some (.storeRegistersRange (fieldX w))
  | 0x65 => some (.loadRegistersRange (fieldX w))
  | _ => none

/-- Decode one word: primary dispatch on the top nibble, secondary dispatch inside the families that have
sub-operations (R49); `none` is an unknown word (R53). A function of the word alone (R50). -/
def decodeWord (w : Word) : Option Instr :=
  match (fieldOp w).toNat with
  | 0x0 => decodeFamily0 w
  | 0x1 => some (.jump (fieldNNN w))
  | 0x2 => some (.call (fieldNNN w))
  | 0x3 => some (.skipIfEqualImmediate (fieldX w) (fieldKK w))
  | 0x4 => some (.skipIfNotEqualImmediate (fieldX w) (fieldKK w))
  | 0x5 => if fieldN w = 0 then some (.skipIfRegistersEqual (fieldX w) (fieldY w)) else none
  | 0x6 => some (.loadImmediate (fieldX w) (fieldKK w))
  | 0x7 => some (.addImmediate (fieldX w) (fieldKK w))
  | 0x8 => decodeFamily8 w
  | 0x9 => if fieldN w = 0 then some (.skipIfRegistersNotEqual (fieldX w) (fieldY w)) else none
  | 0xA => some (.setIndex (fieldNNN w))
  | 0xB => some (.jumpWithOffset (fieldNNN w))
  | 0xC => some (.randomAnd (fieldX w) (fieldKK w))
  | 0xD => some (.drawSprite (fieldX w) (fieldY w) (fieldN w))
  | 0xE => decodeFamilyE w
  | 0xF => decodeFamilyF w
  | _ => none

/-- Why bytes give no instruction. -/
inductive DecodeError where
  /-- Fewer than the two bytes every instruction has (R45); a fetch never meets this. -/
  | tooShort (bytes : List Byte)
  /-- The word matches no row of the opcode map (R53); the step reports it and goes on (R122), so it is safe. -/
  | unknownOpcode (w : Word)
  deriving DecidableEq, Repr

/-- Decode the instruction at the head of any bytes, high byte first (R34), and give the bytes after it. -/
def decode : List Byte → Except DecodeError (Instr × List Byte)
  | hi :: lo :: rest =>
    match decodeWord (Word.ofBytes hi lo) with
    | some i => .ok (i, rest)
    | none => .error (.unknownOpcode (Word.ofBytes hi lo))
  | bytes => .error (.tooShort bytes)

/-- The instruction the decoder reads from a row of spec/opcode_table.json: `w` is the word with bit 0 its least
significant bit, stored high byte first. -/
def decodeTableWord (nbits w : Nat) : Option Instr :=
  let word := BitVec.ofNat 16 (w % 2 ^ nbits)
  match decode [Word.highByte word, Word.lowByte word] with
  | .ok (i, _) => some i
  | .error _ => none

/-! ## The encoder -/

/-- A register selector as the 4 bits of its field (R48). -/
def regField (x : Reg) : BitVec 4 := BitVec.ofNat 4 x.val

/-- Format NNN, `pnnn` (R47). -/
def encodeNNN (op : BitVec 4) (nnn : Addr) : Word := op ++ nnn

/-- Formats XKK, `pxkk`, and XSS, `pxss` (R47). -/
def encodeXKK (op : BitVec 4) (x : Reg) (kk : Byte) : Word := op ++ regField x ++ kk

/-- Formats XYS, `pxys`, and XYN, `Dxyn` (R47). -/
def encodeXYN (op : BitVec 4) (x y : Reg) (n : BitVec 4) : Word := op ++ regField x ++ regField y ++ n

/-- The word of an instruction, from the patterns of R51. -/
def encode : Instr → Word
  | .clearScreen => 0x00E0
  | .ret => 0x00EE
  | .jump nnn => encodeNNN 0x1 nnn
  | .call nnn => encodeNNN 0x2 nnn
  | .skipIfEqualImmediate x kk => encodeXKK 0x3 x kk
  | .skipIfNotEqualImmediate x kk => encodeXKK 0x4 x kk
  | .skipIfRegistersEqual x y => encodeXYN 0x5 x y 0x0
  | .skipIfRegistersNotEqual x y => encodeXYN 0x9 x y 0x0
  | .loadImmediate x kk => encodeXKK 0x6 x kk
  | .addImmediate x kk => encodeXKK 0x7 x kk
  | .copy x y => encodeXYN 0x8 x y 0x0
  | .or x y => encodeXYN 0x8 x y 0x1
  | .and x y => encodeXYN 0x8 x y 0x2
  | .xor x y => encodeXYN 0x8 x y 0x3
  | .addRegisters x y => encodeXYN 0x8 x y 0x4
  | .subRegisters x y => encodeXYN 0x8 x y 0x5
  | .shiftRight x y => encodeXYN 0x8 x y 0x6
  | .subRegistersReverse x y => encodeXYN 0x8 x y 0x7
  | .shiftLeft x y => encodeXYN 0x8 x y 0xE
  | .setIndex nnn => encodeNNN 0xA nnn
  | .jumpWithOffset nnn => encodeNNN 0xB nnn
  | .randomAnd x kk => encodeXKK 0xC x kk
  | .drawSprite x y n => encodeXYN 0xD x y (BitVec.ofNat 4 n)
  | .skipIfKeyPressed x => encodeXKK 0xE x 0x9E
  | .skipIfKeyNotPressed x => encodeXKK 0xE x 0xA1
  | .loadDTIntoVX x => encodeXKK 0xF x 0x07
  | .waitForKey x => encodeXKK 0xF x 0x0A
  | .setDTFromVX x => encodeXKK 0xF x 0x15
  | .setSTFromVX x => encodeXKK 0xF x 0x18
  | .addIndex x => encodeXKK 0xF x 0x1E
  | .setIndexToFontGlyph x => encodeXKK 0xF x 0x29
  | .storeBCD x => encodeXKK 0xF x 0x33
  | .storeRegistersRange x => encodeXKK 0xF x 0x55
  | .loadRegistersRange x => encodeXKK 0xF x 0x65

/-- The two bytes of an instruction as memory holds them, high byte first (R34). -/
def encodeBytes (i : Instr) : List Byte := [Word.highByte (encode i), Word.lowByte (encode i)]

/-! ## The opcode map of R51 -/

/-- A row of R51: a word `w` is the row's instruction when `w & mask = pattern`. -/
structure OpcodeRow where
  pattern : Word
  mask : Word
  deriving DecidableEq, Repr

/-- `w` matches a row (R51). -/
def OpcodeRow.covers (r : OpcodeRow) (w : Word) : Bool := w &&& r.mask == r.pattern

/-- The row of R51 an instruction belongs to: its Match and Mask columns. -/
def opcodeRow : Instr → OpcodeRow
  | .clearScreen => ⟨0x00E0, 0xFFFF⟩
  | .ret => ⟨0x00EE, 0xFFFF⟩
  | .jump _ => ⟨0x1000, 0xF000⟩
  | .call _ => ⟨0x2000, 0xF000⟩
  | .skipIfEqualImmediate _ _ => ⟨0x3000, 0xF000⟩
  | .skipIfNotEqualImmediate _ _ => ⟨0x4000, 0xF000⟩
  | .skipIfRegistersEqual _ _ => ⟨0x5000, 0xF00F⟩
  | .skipIfRegistersNotEqual _ _ => ⟨0x9000, 0xF00F⟩
  | .loadImmediate _ _ => ⟨0x6000, 0xF000⟩
  | .addImmediate _ _ => ⟨0x7000, 0xF000⟩
  | .copy _ _ => ⟨0x8000, 0xF00F⟩
  | .or _ _ => ⟨0x8001, 0xF00F⟩
  | .and _ _ => ⟨0x8002, 0xF00F⟩
  | .xor _ _ => ⟨0x8003, 0xF00F⟩
  | .addRegisters _ _ => ⟨0x8004, 0xF00F⟩
  | .subRegisters _ _ => ⟨0x8005, 0xF00F⟩
  | .shiftRight _ _ => ⟨0x8006, 0xF00F⟩
  | .subRegistersReverse _ _ => ⟨0x8007, 0xF00F⟩
  | .shiftLeft _ _ => ⟨0x800E, 0xF00F⟩
  | .setIndex _ => ⟨0xA000, 0xF000⟩
  | .jumpWithOffset _ => ⟨0xB000, 0xF000⟩
  | .randomAnd _ _ => ⟨0xC000, 0xF000⟩
  | .drawSprite _ _ _ => ⟨0xD000, 0xF000⟩
  | .skipIfKeyPressed _ => ⟨0xE09E, 0xF0FF⟩
  | .skipIfKeyNotPressed _ => ⟨0xE0A1, 0xF0FF⟩
  | .loadDTIntoVX _ => ⟨0xF007, 0xF0FF⟩
  | .waitForKey _ => ⟨0xF00A, 0xF0FF⟩
  | .setDTFromVX _ => ⟨0xF015, 0xF0FF⟩
  | .setSTFromVX _ => ⟨0xF018, 0xF0FF⟩
  | .addIndex _ => ⟨0xF01E, 0xF0FF⟩
  | .setIndexToFontGlyph _ => ⟨0xF029, 0xF0FF⟩
  | .storeBCD _ => ⟨0xF033, 0xF0FF⟩
  | .storeRegistersRange _ => ⟨0xF055, 0xF0FF⟩
  | .loadRegistersRange _ => ⟨0xF065, 0xF0FF⟩

/-- Rows 1 to 10 of R51. -/
def opcodeRowsA : List OpcodeRow :=
  [⟨0x00E0, 0xFFFF⟩, ⟨0x00EE, 0xFFFF⟩, ⟨0x1000, 0xF000⟩, ⟨0x2000, 0xF000⟩, ⟨0x3000, 0xF000⟩,
   ⟨0x4000, 0xF000⟩, ⟨0x5000, 0xF00F⟩, ⟨0x9000, 0xF00F⟩, ⟨0x6000, 0xF000⟩, ⟨0x7000, 0xF000⟩]

/-- Rows 11 to 23 of R51. -/
def opcodeRowsB : List OpcodeRow :=
  [⟨0x8000, 0xF00F⟩, ⟨0x8001, 0xF00F⟩, ⟨0x8002, 0xF00F⟩, ⟨0x8003, 0xF00F⟩, ⟨0x8004, 0xF00F⟩,
   ⟨0x8005, 0xF00F⟩, ⟨0x8006, 0xF00F⟩, ⟨0x8007, 0xF00F⟩, ⟨0x800E, 0xF00F⟩, ⟨0xA000, 0xF000⟩,
   ⟨0xB000, 0xF000⟩, ⟨0xC000, 0xF000⟩, ⟨0xD000, 0xF000⟩]

/-- Rows 24 to 34 of R51. -/
def opcodeRowsC : List OpcodeRow :=
  [⟨0xE09E, 0xF0FF⟩, ⟨0xE0A1, 0xF0FF⟩, ⟨0xF007, 0xF0FF⟩, ⟨0xF00A, 0xF0FF⟩, ⟨0xF015, 0xF0FF⟩,
   ⟨0xF018, 0xF0FF⟩, ⟨0xF01E, 0xF0FF⟩, ⟨0xF029, 0xF0FF⟩, ⟨0xF033, 0xF0FF⟩, ⟨0xF055, 0xF0FF⟩,
   ⟨0xF065, 0xF0FF⟩]

/-- The 34 rows of R51, in its order. -/
def opcodeMap : List OpcodeRow := opcodeRowsA ++ opcodeRowsB ++ opcodeRowsC

end Sys2Proof
end

