-- ==== Sys2Proof/Config.lean ====
section
/-! DEFINITION. Config.lean: the fixed parameters of the hardware (00_scope.md R4) and its one free value, the
random byte stream (10_state.md R21). -/

namespace Sys2Proof.Config

/-- `MEM_SIZE`: every address is reduced modulo this (R4, R31). -/
abbrev memSize : Nat := 4096

/-- `RESET_PC` (R4, R23). -/
abbrev resetPC : Word := 0x200

/-- `PROG_BASE`: the first byte of the program region (R4, R32). -/
abbrev progBase : Nat := 0x200

/-- `PROG_MAX`: the longest image `LOAD` accepts (R4, R43). -/
abbrev progMax : Nat := 0x0E00

/-- `STACK_DEPTH`: the slots of the call stack (R4, R14). -/
abbrev stackDepth : Nat := 16

/-- Bytes of one font glyph (R4, R33). -/
abbrev glyphSize : Nat := 5

/-- `RandomSource`: the k-th byte drawn since reset (R21, D9). A free value (log 7): it has no body, so every
statement about it holds whatever the stream is. -/
opaque randomSource : Nat → Byte

end Sys2Proof.Config
end

