-- ==== Sys2Proof/Machine/State.lean ====
section
/-! DEFINITION. Machine/State.lean: the state of the Machine as plain data (10_state.md R10 to R22), its value after
reset (R23), and the ways a step could stop. -/

namespace Sys2Proof.Machine

/-- The conditions a `STEP` reports on the diagnostic channel (60_exceptions.md R120, R126). -/
inductive DiagKind where
  /-- The fetched word matches no instruction (R122). -/
  | unknownOpcode
  /-- A call with all sixteen slots in use (R123). -/
  | stackOverflow
  /-- A return with no slot in use (R124). -/
  | stackUnderflow
  deriving DecidableEq, Repr

/-- The output event `DIAG(kind, word)` (R121). -/
structure Diag where
  kind : DiagKind
  word : Word
  deriving DecidableEq, Repr

/-- MEM as address and byte pairs, addresses strictly rising, no entry equal to what an unlisted address reads as
(`unlistedByte`); `Memory.wf` says so. -/
abbrev Memory := List Host.Cell

/-- The framebuffer: 32 rows of 64 pixels (R19). -/
abbrev Frame := Vector (Vector Bool 64) 32

/-- The key flags (R18). -/
abbrev Keys := Vector Bool 16

/-- All state of the Machine (R22). -/
structure State where
  /-- V0 to VF (R10); element 15 is also the flag register VF (R11). -/
  v : Vector Byte 16
  /-- The index register I (R12). -/
  i : Word
  /-- The program counter PC (R13). -/
  pc : Word
  /-- The stack pointer SP, the count of slots in use, 0 to 16 (R14). -/
  sp : Fin 17
  /-- The call stack STK, a storage of its own (R15). -/
  stk : Vector Word 16
  /-- The delay timer DT (R16). -/
  dt : Byte
  /-- The sound timer ST (R17). -/
  st : Byte
  /-- The key state K, written by the host only (R18). -/
  k : Keys
  /-- The framebuffer FB (R19). -/
  fb : Frame
  /-- The memory MEM (R20). -/
  mem : Memory
  /-- RNGIDX, the random bytes drawn since the last reset (R21). -/
  rngidx : Nat
  /-- The model's own field (log 11): the parameter `FONT` this Machine was constructed with (R4, R141). No operation
  writes it; `RESET` and what an unlisted address reads as take it. -/
  font : Font
  /-- The model's own field (log 5): the `DIAG` events emitted since the last reset, newest first (R121, R137). -/
  diag : List Diag
  deriving DecidableEq, Repr

/-- The state after `RESET` and after construction, of the Machine whose `FONT` is `font` (R23, R140, R141): everything
zero, PC at 0x200, memory with nothing listed, which reads as that font and zeros. -/
def State.resetWith (font : Font) : State where
  v := Vector.replicate 16 0
  i := 0
  pc := Config.resetPC
  sp := 0
  stk := Vector.replicate 16 0
  dt := 0
  st := 0
  k := Vector.replicate 16 false
  fb := Vector.replicate 32 (Vector.replicate 64 false)
  mem := []
  rngidx := 0
  font := font
  diag := []

/-- The state after reset of the Machine whose `FONT` is the default table of R33. -/
def State.reset : State := State.resetWith defaultFont

/-- Faults that stop the machine: there is none, so the type has no constructor. Every condition of R120 is reported
and the machine goes on; memory, fetch and arithmetic cannot fault (R31, R36, R82). Nothing raises one; safe. -/
inductive Fault where
  deriving DecidableEq, Repr

/-- Reasons an instruction is given no meaning. -/
inductive Refusal where
  /-- Raised by `exec` alone, for an instruction whose meaning is not written yet; safe. No arm of `exec` raises it. -/
  | notModelled (mnemonic : String)
  deriving DecidableEq, Repr

end Sys2Proof.Machine
end

