-- ==== Sys2Proof/Machine/Ops.lean ====
section
/-! DEFINITION. Machine/Ops.lean: the named operations every meaning is written with: memory (20_memory.md), general
registers, PC, the call stack, the random source, the framebuffer, the keys, the timer pass, and `raise`, the one
shared way a condition is reported (60_exceptions.md R121). -/

namespace Sys2Proof.Machine

/-- What a step, an execute stage or an operation over the state answers. -/
abbrev Result := Host.Outcome State Fault Refusal

/-! ## Memory (R30 to R38) -/

/-- What an address that memory does not list reads as: its value after reset, `FONT` at 0x000 to 0x04F and 0
elsewhere (R23, R32; the zeros are D14, log 12). -/
def unlistedByte (f : Font) (a : Nat) : Byte := if h : a < 80 then f[a] else 0

/-- The byte an address below 4096 holds. -/
def Memory.lookup (f : Font) : Memory → Nat → Byte
  | [], a => unlistedByte f a
  | (b, v) :: rest, a => if a = b then v else Memory.lookup f rest a

/-- Put an entry for an address that memory does not list, keeping addresses rising. -/
def Memory.insert : Memory → Nat → Byte → Memory
  | [], a, v => [(a, v)]
  | (b, w) :: rest, a, v => if a < b then (a, v) :: (b, w) :: rest else (b, w) :: Memory.insert rest a v

/-- Remove every entry for an address. -/
def Memory.remove (m : Memory) (a : Nat) : Memory := m.filter (fun c => c.1 ≠ a)

/-- `MemRead(a, 1)`: the byte at `a mod 4096`, for every natural number `a` (R31, R37). -/
def Memory.read (f : Font) (m : Memory) (a : Nat) : Byte := Memory.lookup f m (a % Config.memSize)

/-- `MemWrite(a, 1, v)`: set the byte at `a mod 4096` (R31, R37). Writing what an unlisted address reads as leaves
the address unlisted, so equal memories are equal data. -/
def Memory.write (f : Font) (m : Memory) (a : Nat) (v : Byte) : Memory :=
  if v = unlistedByte f (a % Config.memSize) then Memory.remove m (a % Config.memSize)
  else Memory.insert (Memory.remove m (a % Config.memSize)) (a % Config.memSize) v

/-- Write bytes at `a`, `a + 1`, ... in ascending order, each address reduced on its own (R35). -/
def Memory.writeBytes (f : Font) (m : Memory) (a : Nat) : List Byte → Memory
  | [] => m
  | b :: bs => Memory.writeBytes f (Memory.write f m a b) (a + 1) bs

/-- The canonical form from address `lo` up. -/
def Memory.wfFrom (f : Font) (lo : Nat) : Memory → Bool
  | [] => true
  | (a, v) :: rest => decide (lo ≤ a ∧ a < Config.memSize ∧ v ≠ unlistedByte f a) && Memory.wfFrom f (a + 1) rest

/-- The canonical form of memory: addresses below 4096 and strictly rising, no entry equal to what an unlisted
address reads as. -/
def Memory.wf (f : Font) (m : Memory) : Bool := Memory.wfFrom f 0 m

/-- `MemRead` in a state. -/
def State.readMem (s : State) (a : Nat) : Byte := Memory.read s.font s.mem a

/-- `MemWrite` in a state. -/
def State.writeMem (s : State) (a : Nat) (v : Byte) : State := { s with mem := Memory.write s.font s.mem a v }

/-! ## General registers (R10) -/

/-- `V[x]` (R6). -/
def State.reg (s : State) (x : Reg) : Byte := s.v[x]

/-- `V[x] <- b` (R6). -/
def State.setReg (s : State) (x : Reg) (b : Byte) : State := { s with v := s.v.set x b }

/-! ## The program counter (R13) -/

/-- `PC <- (PC + 2) mod 4096`. -/
def pcPlus2 (pc : Word) : Word := BitVec.ofNat 16 ((pc.toNat + 2) % Config.memSize)

/-- `PC <- (PC - 2) mod 4096`: the 16-bit difference wraps by a multiple of 4096. -/
def pcMinus2 (pc : Word) : Word := BitVec.ofNat 16 ((pc - 2).toNat % Config.memSize)

/-- The advance of the fetch (R62). -/
def State.advance (s : State) : State := { s with pc := pcPlus2 s.pc }

/-- `skip` when the condition holds (R85). -/
def State.skipIf (s : State) (cond : Bool) : State := if cond then { s with pc := pcPlus2 s.pc } else s

/-- The rewind of wait-for-key (R112). -/
def State.rewind (s : State) : State := { s with pc := pcMinus2 s.pc }

/-- `Fetch16(PC)`: the word at `PC mod 4096` and `(PC + 1) mod 4096`, high byte first (R34, R61). -/
def State.fetch16 (s : State) : Word := Word.ofBytes (s.readMem s.pc.toNat) (s.readMem (s.pc.toNat + 1))

/-! ## Reporting a condition (R121) -/

/-- `raise <kind>(w)`: emit `DIAG(kind, w)` and change nothing else in the execute stage; the timer pass follows. This
hardware has no trap entry (R129) and no return from one (R130): this is the whole of taking an exception. -/
def State.raise (s : State) (kind : DiagKind) (w : Word) : State := { s with diag := ⟨kind, w⟩ :: s.diag }

/-! ## The call stack (R14, R15) -/

/-- `STK[SP] <- w; SP <- SP + 1`, or nothing when all sixteen slots are in use. -/
def State.push (s : State) (w : Word) : Option State :=
  if h : s.sp.val < 16 then
    some { s with stk := s.stk.set s.sp.val w, sp := ⟨s.sp.val + 1, by omega⟩ }
  else none

/-- `SP <- SP - 1`, and the slot `STK[SP]` then holds, or nothing when no slot is in use. -/
def State.pop (s : State) : Option (Word × State) :=
  if h : 0 < s.sp.val then
    some (s.stk[s.sp.val - 1]'(by omega), { s with sp := ⟨s.sp.val - 1, by omega⟩ })
  else none

/-! ## The random source (R21) -/

/-- `Rand()`: the byte at RNGIDX of the stream, RNGIDX moved on by one. -/
def State.rand (s : State) : Byte × State := (Config.randomSource s.rngidx, { s with rngidx := s.rngidx + 1 })

/-! ## The framebuffer (R19) -/

/-- `FB[y][x]`. -/
def Frame.pixel (f : Frame) (y : Fin 32) (x : Fin 64) : Bool := (f[y])[x]

/-- `FB[y][x] <- FB[y][x] ^ 1`. -/
def Frame.toggle (f : Frame) (y : Fin 32) (x : Fin 64) : Frame := f.set y ((f[y]).set x (!(f[y])[x]))

/-- Every pixel 0 (R104). -/
def Frame.blank : Frame := Vector.replicate 32 (Vector.replicate 64 false)

/-- `FB[y][x]` in a state. -/
def State.pixel (s : State) (y : Fin 32) (x : Fin 64) : Bool := Frame.pixel s.fb y x

/-! ## The keys (R18, R112, R113) -/

/-- `K[i]`. -/
def State.key (s : State) (i : Fin 16) : Bool := s.k[i]

/-- `KeyOf(a) = a[3:0]`, the key a register value names (R113, D11, log 9). -/
def keyOf (a : Byte) : Fin 16 := Fin.ofNat 16 a.toNat

/-- `KeyPick(K)`: the lowest-numbered pressed key, none when no key is pressed (R112, D10, log 8). -/
def keyPick (k : Keys) : Option (Fin 16) := ((List.range 16).map (Fin.ofNat 16)).find? (fun i => k[i])

/-! ## The timers (R115) -/

/-- One timer's countdown: down by 1 if nonzero. -/
def countDown (t : Byte) : Byte := if t = 0 then 0 else t - 1

/-- The timer pass, stage 4 of every step (R65, R115). -/
def State.timerPass (s : State) : State := { s with dt := countDown s.dt, st := countDown s.st }

/-! ## The frame of a step (R60) -/

/-- The execute stage of a word that is no instruction (R122): report it and change nothing else. -/
def execUnknown (w : Word) (s : State) : Result := .next (s.raise .unknownOpcode w)

/-- Stage 4 after an execute stage that completed or reported (R64, R65). -/
def endStep : Result → Result
  | .next s => .next s.timerPass
  | .fault f => .fault f
  | .refused r => .refused r

end Sys2Proof.Machine
end

