-- ==== Sys2Proof/Machine/Flags.lean ====
section
/-! DEFINITION. Machine/Flags.lean: every value an instruction writes to VF as a flag (10_state.md R11), and the
order of the flag write and the data write (00_scope.md R9). -/

namespace Sys2Proof.Machine

/-- A flag as the register value 0 or 1 (R11). -/
def flagByte (b : Bool) : Byte := if b then 1 else 0

/-- Carry out of bit 7: `a + b > 255` (R76). -/
def carryFlag (a b : Byte) : Byte := flagByte (decide (a.toNat + b.toNat > 255))

/-- The subtract flag: the minuend strictly greater than the subtrahend, so 0 for equal operands (R77, R79, C9). -/
def greaterFlag (a b : Byte) : Byte := flagByte (decide (a.toNat > b.toNat))

/-- The bit a right shift moves out, `a[0]` (R78). -/
def shiftRightFlag (a : Byte) : Byte := flagByte (a.getLsbD 0)

/-- The bit a left shift moves out, `a[7]` (R80). -/
def shiftLeftFlag (a : Byte) : Byte := flagByte (a.getLsbD 7)

/-- `I + V[x] > 0xFFF`, on the exact sum (R96). -/
def indexFlag (i : Word) (a : Byte) : Byte := flagByte (decide (i.toNat + a.toNat > 0xFFF))

/-- The flag write to VF, then the data write to `V[x]`; so with x = 0xF the data is what VF holds (R9). -/
def State.setFlagThenReg (s : State) (flag : Byte) (x : Reg) (data : Byte) : State :=
  (s.setReg VF flag).setReg x data

end Sys2Proof.Machine
end

