-- ==== Sys2Proof/Machine/Operands.lean ====
section
/-! DEFINITION. Machine/Operands.lean: the operand forms (30_encoding.md R48, 43_memory_access.md R101): zero
extension of `nnn`, effective addresses, runs of registers, sprite positions and bits. -/

namespace Sys2Proof.Machine

/-- `nnn` as a 16-bit address, zero-extended (R48). -/
def addrWord (nnn : Addr) : Word := nnn.setWidth 16

/-- `nnn + zext_16(V[0])`, not reduced modulo 4096 (R93). -/
def offsetTarget (nnn : Addr) (v0 : Byte) : Word := addrWord nnn + v0.setWidth 16

/-- `EA(k) = (I + k) mod 4096` (R101). -/
def dataAddress (i : Word) (k : Nat) : Nat := (i.toNat + k) % Config.memSize

/-- The address of the glyph a register value names, `a * 5` in full (R97). -/
def glyphAddress (a : Byte) : Word := BitVec.ofNat 16 (a.toNat * Config.glyphSize)

/-- The registers V0 to `V[x]` inclusive, ascending: the x + 1 registers of a range (R99, R100). -/
def regRange (x : Reg) : List Reg := (List.range (x.val + 1)).map (Fin.ofNat 16)

/-- Hundreds, tens and ones of a register value, each a byte (R98). -/
def bcdDigits (a : Byte) : List Byte :=
  [BitVec.ofNat 8 (a.toNat / 100), BitVec.ofNat 8 (a.toNat / 10 % 10), BitVec.ofNat 8 (a.toNat % 10)]

/-- Sprite column `c` of a row is bit `7 - c` (R106). -/
def spriteBit (b : Byte) (c : Nat) : Bool := b.getLsbD (7 - c)

/-- `px = (cx + c) mod 64` (R105). -/
def pixelColumn (cx : Byte) (c : Nat) : Fin 64 := Fin.ofNat 64 (cx.toNat + c)

/-- `py = (cy + r) mod 32` (R105). -/
def pixelRow (cy : Byte) (r : Nat) : Fin 32 := Fin.ofNat 32 (cy.toNat + r)

end Sys2Proof.Machine
end

