-- ==== Sys2Proof/Machine/Arithmetic.lean ====
section
/-! DEFINITION. Machine/Arithmetic.lean: the twelve instructions of 41_arithmetic.md. A meaning is the execute stage:
PC is already advanced, and the timer pass follows (40_step_sequencer.md R60). Operands are latched first (R9). -/

namespace Sys2Proof.Machine

/-- load-immediate `6xkk` (R70). -/
def execLoadImmediate (x : Reg) (kk : Byte) (s : State) : Result :=
  .next (s.setReg x kk)

/-- add-immediate `7xkk` (R71): modulo 256, no flag. -/
def execAddImmediate (x : Reg) (kk : Byte) (s : State) : Result :=
  .next (s.setReg x (s.reg x + kk))

/-- copy `8xy0` (R72). -/
def execCopy (x y : Reg) (s : State) : Result :=
  .next (s.setReg x (s.reg y))

/-- OR `8xy1` (R73): VF is not written as a flag (D17). -/
def execOr (x y : Reg) (s : State) : Result :=
  .next (s.setReg x (s.reg x ||| s.reg y))

/-- AND `8xy2` (R74). -/
def execAnd (x y : Reg) (s : State) : Result :=
  .next (s.setReg x (s.reg x &&& s.reg y))

/-- XOR `8xy3` (R75). -/
def execXor (x y : Reg) (s : State) : Result :=
  .next (s.setReg x (s.reg x ^^^ s.reg y))

/-- add-registers `8xy4` (R76). -/
def execAddRegisters (x y : Reg) (s : State) : Result :=
  .next (s.setFlagThenReg (carryFlag (s.reg x) (s.reg y)) x (s.reg x + s.reg y))

/-- sub-registers `8xy5` (R77); both operands are the values before the flag write (D5, log 3). -/
def execSubRegisters (x y : Reg) (s : State) : Result :=
  .next (s.setFlagThenReg (greaterFlag (s.reg x) (s.reg y)) x (s.reg x - s.reg y))

/-- shift-right `8xy6` (R78): of `V[x]` by one; `y` plays no part. -/
def execShiftRight (x _y : Reg) (s : State) : Result :=
  .next (s.setFlagThenReg (shiftRightFlag (s.reg x)) x (s.reg x >>> 1))

/-- sub-registers-reverse `8xy7` (R79). -/
def execSubRegistersReverse (x y : Reg) (s : State) : Result :=
  .next (s.setFlagThenReg (greaterFlag (s.reg y) (s.reg x)) x (s.reg y - s.reg x))

/-- shift-left `8xyE` (R80): of `V[x]` by one; `y` plays no part. -/
def execShiftLeft (x _y : Reg) (s : State) : Result :=
  .next (s.setFlagThenReg (shiftLeftFlag (s.reg x)) x (s.reg x <<< 1))

/-- random-and `Cxkk` (R81): one byte is drawn per execution, whatever `kk` is (D9). -/
def execRandomAnd (x : Reg) (kk : Byte) (s : State) : Result :=
  .next (s.rand.2.setReg x (s.rand.1 &&& kk))

end Sys2Proof.Machine
end

