-- ==== Sys2Proof/Machine/ControlFlow.lean ====
section
/-! DEFINITION. Machine/ControlFlow.lean: the eight instructions of 42_control_flow.md. PC is the advanced PC when a
meaning starts: the address of the next sequential instruction (R62). The word a stack condition reports is the
instruction's own, `encode` of it (log 20). -/

namespace Sys2Proof.Machine

/-- jump `1nnn` (R86). -/
def execJump (nnn : Addr) (s : State) : Result :=
  .next { s with pc := addrWord nnn }

/-- call `2nnn` (R87): pushes the advanced PC; with all sixteen slots in use it reports `StackOverflow` and does
nothing else (R123, D6, log 4). -/
def execCall (nnn : Addr) (s : State) : Result :=
  match s.push s.pc with
  | some s' => .next { s' with pc := addrWord nnn }
  | none => .next (s.raise .stackOverflow (encode (.call nnn)))

/-- return `00EE` (R88): pops the full 16-bit slot; with no slot in use it reports `StackUnderflow` and does nothing
else (R124, D6, log 4). -/
def execRet (s : State) : Result :=
  match s.pop with
  | some (w, s') => .next { s' with pc := w }
  | none => .next (s.raise .stackUnderflow (encode .ret))

/-- skip-if-equal-immediate `3xkk` (R89). -/
def execSkipIfEqualImmediate (x : Reg) (kk : Byte) (s : State) : Result :=
  .next (s.skipIf (s.reg x == kk))

/-- skip-if-not-equal-immediate `4xkk` (R90). -/
def execSkipIfNotEqualImmediate (x : Reg) (kk : Byte) (s : State) : Result :=
  .next (s.skipIf (s.reg x != kk))

/-- skip-if-registers-equal `5xy0` (R91). -/
def execSkipIfRegistersEqual (x y : Reg) (s : State) : Result :=
  .next (s.skipIf (s.reg x == s.reg y))

/-- skip-if-registers-not-equal `9xy0` (R92). -/
def execSkipIfRegistersNotEqual (x y : Reg) (s : State) : Result :=
  .next (s.skipIf (s.reg x != s.reg y))

/-- jump-with-offset `Bnnn` (R93): always V0, and not reduced modulo 4096 (C2). -/
def execJumpWithOffset (nnn : Addr) (s : State) : Result :=
  .next { s with pc := offsetTarget nnn (s.reg 0) }

end Sys2Proof.Machine
end

