-- ==== Sys2Proof/Machine/Graphics.lean ====
section
/-! DEFINITION. Machine/Graphics.lean: the two instructions of 44_graphics.md. -/

namespace Sys2Proof.Machine

/-- clear-screen `00E0` (R104). -/
def execClearScreen (s : State) : Result :=
  .next { s with fb := Frame.blank }

/-- One pixel of a sprite (R105): where the sprite bit is 1, VF takes in whether the pixel was already 1, and the pixel
is toggled; where it is 0, the pixel is neither changed nor tested. -/
def State.drawPixel (s : State) (py : Fin 32) (px : Fin 64) (bit : Bool) : State :=
  if bit then
    { s with fb := Frame.toggle s.fb py px }.setReg VF (s.reg VF ||| flagByte (s.pixel py px))
  else s

/-- One row of a sprite: columns 0 to 7 of the byte `b`, at row `py` and from column `cx` (R105, R106). -/
def State.drawRow (s : State) (cx : Byte) (py : Fin 32) (b : Byte) : State :=
  (List.range 8).foldl (fun t c => t.drawPixel py (pixelColumn cx c) (spriteBit b c)) s

/-- draw sprite `Dxyn` (R105): the position and I are latched, VF is reset to 0, then row after row is read from
`(I + r) mod 4096` and drawn. -/
def execDrawSprite (x y : Reg) (n : Nat) (s : State) : Result :=
  .next ((List.range n).foldl
    (fun t r => t.drawRow (s.reg x) (pixelRow (s.reg y) r) (t.readMem (s.i.toNat + r))) (s.setReg VF 0))

end Sys2Proof.Machine
end

