-- ==== Sys2Proof/Machine/Input.lean ====
section
/-! DEFINITION. Machine/Input.lean: the three instructions of 45_input.md. K is read, never written (R18). -/

namespace Sys2Proof.Machine

/-- skip-if-key-pressed `Ex9E` (R110). -/
def execSkipIfKeyPressed (x : Reg) (s : State) : Result :=
  .next (s.skipIf (s.key (keyOf (s.reg x))))

/-- skip-if-key-not-pressed `ExA1` (R111). -/
def execSkipIfKeyNotPressed (x : Reg) (s : State) : Result :=
  .next (s.skipIf (!s.key (keyOf (s.reg x))))

/-- wait-for-key `Fx0A` (R112): with a key pressed `V[x]` takes its number; with none PC goes back to this
instruction. -/
def execWaitForKey (x : Reg) (s : State) : Result :=
  match keyPick s.k with
  | some key => .next (s.setReg x (BitVec.ofNat 8 key.val))
  | none => .next s.rewind

end Sys2Proof.Machine
end

