-- ==== Sys2Proof/Machine/MemoryAccess.lean ====
section
/-! DEFINITION. Machine/MemoryAccess.lean: the six instructions of 43_memory_access.md. I is the base of every access
and no access changes it (R101, D16). -/

namespace Sys2Proof.Machine

/-- set-index `Annn` (R95). -/
def execSetIndex (nnn : Addr) (s : State) : Result :=
  .next { s with i := addrWord nnn }

/-- add-index `Fx1E` (R96): the sum modulo 4096, and VF from the exact sum. -/
def execAddIndex (x : Reg) (s : State) : Result :=
  .next ({ s with i := BitVec.ofNat 16 (dataAddress s.i (s.reg x).toNat) }.setReg VF (indexFlag s.i (s.reg x)))

/-- set-index-to-font-glyph `Fx29` (R97): the whole value of `V[x]`, not reduced to a digit. -/
def execSetIndexToFontGlyph (x : Reg) (s : State) : Result :=
  .next { s with i := glyphAddress (s.reg x) }

/-- store-BCD `Fx33` (R98): hundreds, tens, ones at I, I + 1, I + 2. -/
def execStoreBCD (x : Reg) (s : State) : Result :=
  .next { s with mem := Memory.writeBytes s.font s.mem s.i.toNat (bcdDigits (s.reg x)) }

/-- store-registers-range `Fx55` (R99): V0 to `V[x]` at I, I + 1, ... -/
def execStoreRegistersRange (x : Reg) (s : State) : Result :=
  .next { s with mem := Memory.writeBytes s.font s.mem s.i.toNat ((regRange x).map s.reg) }

/-- load-registers-range `Fx65` (R100): V0 to `V[x]` from I, I + 1, ... -/
def execLoadRegistersRange (x : Reg) (s : State) : Result :=
  .next ((regRange x).foldl (fun t k => t.setReg k (s.readMem (s.i.toNat + k.val))) s)

end Sys2Proof.Machine
end

