-- ==== Sys2Proof/Machine/Timers.lean ====
section
/-! DEFINITION. Machine/Timers.lean: the three timer instructions of 46_timers.md. The timer pass of the same step
comes after them (R119). -/

namespace Sys2Proof.Machine

/-- load-DT-into-VX `Fx07` (R116): DT before this step's countdown. -/
def execLoadDTIntoVX (x : Reg) (s : State) : Result :=
  .next (s.setReg x s.dt)

/-- set-DT-from-VX `Fx15` (R117). -/
def execSetDTFromVX (x : Reg) (s : State) : Result :=
  .next { s with dt := s.reg x }

/-- set-ST-from-VX `Fx18` (R118). -/
def execSetSTFromVX (x : Reg) (s : State) : Result :=
  .next { s with st := s.reg x }

end Sys2Proof.Machine
end

