-- ==== Sys2Proof/Machine/Dispatch.lean ====
section
/-! DEFINITION. Machine/Dispatch.lean: the execute stage (40_step_sequencer.md R64), one arm per instruction. -/

namespace Sys2Proof.Machine

def exec (i : Instr) (s : State) : Host.Outcome State Fault Refusal :=
  match i with
  | .clearScreen => Sys2Proof.Machine.execClearScreen s
  | .ret => Sys2Proof.Machine.execRet s
  | .jump nnn => Sys2Proof.Machine.execJump nnn s
  | .call nnn => Sys2Proof.Machine.execCall nnn s
  | .skipIfEqualImmediate x kk => Sys2Proof.Machine.execSkipIfEqualImmediate x kk s
  | .skipIfNotEqualImmediate x kk => Sys2Proof.Machine.execSkipIfNotEqualImmediate x kk s
  | .skipIfRegistersEqual x y => Sys2Proof.Machine.execSkipIfRegistersEqual x y s
  | .skipIfRegistersNotEqual x y => Sys2Proof.Machine.execSkipIfRegistersNotEqual x y s
  | .loadImmediate x kk => Sys2Proof.Machine.execLoadImmediate x kk s
  | .addImmediate x kk => Sys2Proof.Machine.execAddImmediate x kk s
  | .copy x y => Sys2Proof.Machine.execCopy x y s
  | .or x y => Sys2Proof.Machine.execOr x y s
  | .and x y => Sys2Proof.Machine.execAnd x y s
  | .xor x y => Sys2Proof.Machine.execXor x y s
  | .addRegisters x y => Sys2Proof.Machine.execAddRegisters x y s
  | .subRegisters x y => Sys2Proof.Machine.execSubRegisters x y s
  | .shiftRight x y => Sys2Proof.Machine.execShiftRight x y s
  | .subRegistersReverse x y => Sys2Proof.Machine.execSubRegistersReverse x y s
  | .shiftLeft x y => Sys2Proof.Machine.execShiftLeft x y s
  | .setIndex nnn => Sys2Proof.Machine.execSetIndex nnn s
  | .jumpWithOffset nnn => Sys2Proof.Machine.execJumpWithOffset nnn s
  | .randomAnd x kk => Sys2Proof.Machine.execRandomAnd x kk s
  | .drawSprite x y n => Sys2Proof.Machine.execDrawSprite x y n s
  | .skipIfKeyPressed x => Sys2Proof.Machine.execSkipIfKeyPressed x s
  | .skipIfKeyNotPressed x => Sys2Proof.Machine.execSkipIfKeyNotPressed x s
  | .loadDTIntoVX x => Sys2Proof.Machine.execLoadDTIntoVX x s
  | .waitForKey x => Sys2Proof.Machine.execWaitForKey x s
  | .setDTFromVX x => Sys2Proof.Machine.execSetDTFromVX x s
  | .setSTFromVX x => Sys2Proof.Machine.execSetSTFromVX x s
  | .addIndex x => Sys2Proof.Machine.execAddIndex x s
  | .setIndexToFontGlyph x => Sys2Proof.Machine.execSetIndexToFontGlyph x s
  | .storeBCD x => Sys2Proof.Machine.execStoreBCD x s
  | .storeRegistersRange x => Sys2Proof.Machine.execStoreRegistersRange x s
  | .loadRegistersRange x => Sys2Proof.Machine.execLoadRegistersRange x s

end Sys2Proof.Machine
end

