-- ==== Sys2Proof/Machine/Step.lean ====
section
/-! DEFINITION. Machine/Step.lean: the `STEP` operation (40_step_sequencer.md R60) and how a word is placed where it
fetches. -/

namespace Sys2Proof.Machine

/-- `STEP` (R60): fetch (R61), advance (R62), decode and execute (R63, R64) or report the unknown word (R122), then the
timer pass, whatever the execute stage did (R65). -/
def step (s : State) : Host.Outcome State Fault Refusal :=
  match decodeWord s.fetch16 with
  | some i => endStep (exec i s.advance)
  | none => endStep (execUnknown s.fetch16 s.advance)

/-- `s` with the instruction word `w` stored where `step` fetches next, high byte at PC and low byte at PC + 1, both
modulo 4096. It stands for the host's `LOAD` (R142, log 17). -/
def State.withFetchWord (s : State) (nbits w : Nat) : State :=
  let word := BitVec.ofNat 16 (w % 2 ^ nbits)
  { s with mem := Memory.writeBytes s.font s.mem s.pc.toNat [Word.highByte word, Word.lowByte word] }

end Sys2Proof.Machine
end

