-- ==== Sys2Proof/Machine/HostOps.lean ====
section
/-! DEFINITION. Machine/HostOps.lean: the operations the host invokes (00_scope.md R7), one at a time (R8): `RESET`,
`LOAD`, `STEP`, `SET_KEYS`, `FB_READ`, and the codes of the conditions (60_exceptions.md R126). -/

namespace Sys2Proof.Machine

/-- What `LOAD` answers (R43, R125). -/
inductive LoadResult where
  /-- The image was copied. -/
  | ok
  /-- The image is longer than 0x0E00 bytes: nothing was copied. -/
  | loadError
  deriving DecidableEq, Repr

/-- `RESET` (R140): every piece of state takes its reset value, whatever it was; the parameter `FONT` stays the one of
this Machine and is what memory reads at 0x000 to 0x04F. -/
def State.resetOp (s : State) : State := State.resetWith s.font

/-- `LOAD(bytes)` (R43): copy the image to 0x200 on, or fail and change nothing (R125, C3). -/
def State.load (s : State) (bytes : List Byte) : LoadResult × State :=
  if bytes.length > Config.progMax then (.loadError, s)
  else (.ok, { s with mem := Memory.writeBytes s.font s.mem Config.progBase bytes })

/-- `SET_KEYS(k)` (R18): all sixteen flags. -/
def State.setKeys (s : State) (keys : Keys) : State := { s with k := keys }

/-- `FB_READ` (R19, R108): the 2048 pixels in row-major order, index `y * 64 + x`. -/
def State.fbRead (s : State) : List Bool :=
  (List.range 2048).map (fun j => s.pixel (Fin.ofNat 32 (j / 64)) (Fin.ofNat 64 j))

/-- The event a `STEP` emitted, from the histories before and after it (R121). -/
def emitted (before after : State) : Option Diag :=
  if before.diag.length < after.diag.length then after.diag.head? else none

/-- The operations (R7). -/
inductive Operation where
  | reset
  | load (bytes : List Byte)
  | step
  | setKeys (keys : Keys)
  | fbRead
  deriving DecidableEq, Repr

/-- What an operation gives back to the host (R7): nothing, the result of `LOAD`, the at most one `DIAG` event of a
`STEP`, or the pixels. -/
inductive Output where
  | nothing
  | loaded (r : LoadResult)
  | event (e : Option Diag)
  | pixels (p : List Bool)
  deriving DecidableEq, Repr

/-- One operation, an atomic transition of the whole state (R7). -/
def operate (op : Operation) (s : State) : Host.Outcome (Output × State) Fault Refusal :=
  match op with
  | .reset => .next (.nothing, s.resetOp)
  | .load bytes => .next (.loaded (s.load bytes).1, (s.load bytes).2)
  | .step =>
    match step s with
    | .next s' => .next (.event (emitted s s'), s')
    | .fault f => .fault f
    | .refused r => .refused r
  | .setKeys keys => .next (.nothing, s.setKeys keys)
  | .fbRead => .next (.pixels s.fbRead, s)

/-- The code of a reported condition (R126, D7); 0 means no event. -/
def DiagKind.code : DiagKind → Nat
  | .unknownOpcode => 1
  | .stackOverflow => 2
  | .stackUnderflow => 3

/-- The code of what an operation reported (R126): `LoadError` is 4. -/
def Output.code : Output → Nat
  | .nothing => 0
  | .loaded .ok => 0
  | .loaded .loadError => 4
  | .event none => 0
  | .event (some e) => e.kind.code
  | .pixels _ => 0

end Sys2Proof.Machine
end

