-- ==== Sys2Proof/Safety.lean ====
section
/-! DEFINITION. Safety.lean: the terms claims use: the invariant of every reachable state, runs that report nothing
(60_exceptions.md R137), what an instruction may write (10_state.md R24) as a frame between two states, and the
pixels a sprite covers in closed form (44_graphics.md R105, R106). -/

namespace Sys2Proof.Machine

/-- What every reachable state meets: memory in canonical form, I at most 0xFFF (R12), PC at most 0x10FE (R13), every
stack slot at most 0xFFF (R15). SP at most 16 (R14) is the type of `sp`. -/
abbrev State.Inv (s : State) : Prop :=
  Memory.wf s.font s.mem = true ∧ s.i.toNat ≤ 0xFFF ∧ s.pc.toNat ≤ 0x10FE ∧ ∀ k : Fin 16, (s.stk[k]).toNat ≤ 0xFFF

/-- A step that reports nothing on the diagnostic channel (R137). -/
def quietStep (s : State) : Bool :=
  match step s with
  | .next t => t.diag == s.diag
  | .fault _ => false
  | .refused _ => false

/-- A run of `n` steps that reports nothing: what a claim about the reference machine takes as its premise (R137). -/
def safeRun : Nat → State → Bool
  | 0, _ => true
  | n + 1, s =>
    match step s with
    | .next t => quietStep s && safeRun n t
    | .fault _ => false
    | .refused _ => false

/-- What may change: the general registers and stack slots named, the memory addresses named, and the single pieces
marked. K and the parameter `FONT` are not among them: no instruction writes K (R18), nothing
writes `FONT` (R4). -/
structure Footprint where
  regs : List Reg := []
  index : Bool := false
  pc : Bool := false
  sp : Bool := false
  slots : List (Fin 16) := []
  dt : Bool := false
  st : Bool := false
  fb : Bool := false
  mem : List Nat := []
  rng : Bool := false
  diag : Bool := false
  deriving DecidableEq, Repr

/-- From `s` to `t` nothing changed outside the footprint `f`. -/
structure SameExcept (f : Footprint) (s t : State) : Prop where
  regs : ∀ r : Reg, r ∉ f.regs → t.reg r = s.reg r
  index : f.index = false → t.i = s.i
  pc : f.pc = false → t.pc = s.pc
  sp : f.sp = false → t.sp = s.sp
  slots : ∀ k : Fin 16, k ∉ f.slots → t.stk[k] = s.stk[k]
  dt : f.dt = false → t.dt = s.dt
  st : f.st = false → t.st = s.st
  keys : t.k = s.k
  font : t.font = s.font
  fb : f.fb = false → t.fb = s.fb
  mem : ∀ a : Nat, a % 4096 ∉ f.mem → t.readMem a = s.readMem a
  rng : f.rng = false → t.rngidx = s.rngidx
  diag : f.diag = false → t.diag = s.diag

/-- The addresses `EA(0)` to `EA(n - 1)` (R101). -/
def dataAddresses (i : Word) (n : Nat) : List Nat := (List.range n).map (fun k => (i.toNat + k) % 4096)

/-- The Writes column of R24: what the execute stage of an instruction may change in a state. -/
def footprint (i : Instr) (s : State) : Footprint :=
  match i with
  | .clearScreen => { fb := true }
  | .ret => if s.sp = 0 then { diag := true } else { sp := true, pc := true }
  | .jump _ => { pc := true }
  | .call _ => if h : s.sp.val < 16 then { slots := [⟨s.sp.val, h⟩], sp := true, pc := true } else { diag := true }
  | .skipIfEqualImmediate _ _ => { pc := true }
  | .skipIfNotEqualImmediate _ _ => { pc := true }
  | .skipIfRegistersEqual _ _ => { pc := true }
  | .skipIfRegistersNotEqual _ _ => { pc := true }
  | .loadImmediate x _ => { regs := [x] }
  | .addImmediate x _ => { regs := [x] }
  | .copy x _ => { regs := [x] }
  | .or x _ => { regs := [x] }
  | .and x _ => { regs := [x] }
  | .xor x _ => { regs := [x] }
  | .addRegisters x _ => { regs := [VF, x] }
  | .subRegisters x _ => { regs := [VF, x] }
  | .shiftRight x _ => { regs := [VF, x] }
  | .subRegistersReverse x _ => { regs := [VF, x] }
  | .shiftLeft x _ => { regs := [VF, x] }
  | .setIndex _ => { index := true }
  | .jumpWithOffset _ => { pc := true }
  | .randomAnd x _ => { regs := [x], rng := true }
  | .drawSprite _ _ _ => { regs := [VF], fb := true }
  | .skipIfKeyPressed _ => { pc := true }
  | .skipIfKeyNotPressed _ => { pc := true }
  | .loadDTIntoVX x => { regs := [x] }
  | .waitForKey x => if s.k.any id then { regs := [x] } else { pc := true }
  | .setDTFromVX _ => { dt := true }
  | .setSTFromVX _ => { st := true }
  | .addIndex _ => { index := true, regs := [VF] }
  | .setIndexToFontGlyph _ => { index := true }
  | .storeBCD _ => { mem := dataAddresses s.i 3 }
  | .storeRegistersRange x => { mem := dataAddresses s.i (x.val + 1) }
  | .loadRegistersRange x => { regs := (List.finRange 16).filter (fun r => r ≤ x) }

/-- Row of a sprite drawn from row `cy` that lands on framebuffer row `py`, if that is below its height. -/
def spriteRow (cy : Byte) (py : Fin 32) : Nat := (py.val + (32 - cy.toNat % 32)) % 32

/-- Column of a sprite drawn from column `cx` that lands on framebuffer column `px`, if that is below 8. -/
def spriteColumn (cx : Byte) (px : Fin 64) : Nat := (px.val + (64 - cx.toNat % 64)) % 64

/-- The sprite of `n` rows at I, drawn from column `cx` and row `cy`, has a 1 bit for the pixel (R105, R106): bit
`7 - c` of byte `r` for the row `r` and column `c` that land on it. -/
def spriteCovers (s : State) (cx cy : Byte) (n : Nat) (py : Fin 32) (px : Fin 64) : Bool :=
  decide (spriteRow cy py < n) && decide (spriteColumn cx px < 8) &&
    (s.readMem (s.i.toNat + spriteRow cy py)).getLsbD (7 - spriteColumn cx px)

end Sys2Proof.Machine
end

