-- ==== Sys2Proof/Certificates/Slice0/Obligations.lean ====
section
/-! DEFINITION. Certificates/Slice0/Obligations.lean: the statements for the provers, one `def Obligations.<Name> : Prop`
each, in the order of OBLIGATIONS.json. `exec` is the execute stage: the state it is given holds the advanced PC
(40_step_sequencer.md R62), and the timer pass is `step`'s (R65). -/

open Sys2Proof Sys2Proof.Machine

/-! ## Encoding -/

/-- Words written out from the patterns of R51 and the decode vectors of 95_test_vectors.md, at least one of each of the
sixteen families of R49 and every timer instruction, decode to the instruction they stand for, and words next to them
to none (derived: R51 and R52 rest on D2, D3, D4). -/
def Obligations.SpecWordsDecode : Prop :=
  decodeWord 0x00E0 = some .clearScreen ∧ decodeWord 0x00EE = some .ret ∧
  decodeWord 0x1ABC = some (.jump 0xABC) ∧ decodeWord 0x2210 = some (.call 0x210) ∧
  decodeWord 0x3107 = some (.skipIfEqualImmediate 1 0x07) ∧
  decodeWord 0x4107 = some (.skipIfNotEqualImmediate 1 0x07) ∧
  decodeWord 0x5120 = some (.skipIfRegistersEqual 1 2) ∧ decodeWord 0x6A2C = some (.loadImmediate 0xA 0x2C) ∧
  decodeWord 0x7A20 = some (.addImmediate 0xA 0x20) ∧ decodeWord 0x8AB6 = some (.shiftRight 0xA 0xB) ∧
  decodeWord 0x9120 = some (.skipIfRegistersNotEqual 1 2) ∧ decodeWord 0xA300 = some (.setIndex 0x300) ∧
  decodeWord 0xBABC = some (.jumpWithOffset 0xABC) ∧ decodeWord 0xC30F = some (.randomAnd 3 0x0F) ∧
  decodeWord 0xD125 = some (.drawSprite 1 2 5) ∧ decodeWord 0xEFA1 = some (.skipIfKeyNotPressed 0xF) ∧
  decodeWord 0xF207 = some (.loadDTIntoVX 2) ∧ decodeWord 0xF015 = some (.setDTFromVX 0) ∧
  decodeWord 0xF018 = some (.setSTFromVX 0) ∧ decodeWord 0xFF65 = some (.loadRegistersRange 0xF) ∧
  decodeWord 0x5AB1 = none ∧ decodeWord 0x01E0 = none ∧
  decodeWord 0x0000 = none

/-- Decode undoes encode: the two bytes of every well-formed instruction, whatever follows them, decode to that
instruction, every operand at every value its field admits, and the rest is left over (derived: the formats of R47). -/
def Obligations.DecodeInvertsEncode : Prop :=
  ∀ (i : Instr) (rest : List Byte), i.wf = true → decode (encodeBytes i ++ rest) = .ok (i, rest)

/-- Encode undoes decode: a word decodes to at most one instruction, a well-formed one, and its word is that word, so
no bit of a word is ignored (derived: R46 "ignores no bit", R49, R52). -/
def Obligations.EncodeInvertsDecode : Prop :=
  ∀ (w : Word) (i : Instr), decodeWord w = some i → i.wf = true ∧ encode i = w

/-- The decoder is the opcode map: a word decodes exactly when a row of R51 covers it, what it decodes to belongs to a
row that covers it, and no word is covered by two rows (derived: R49, R51, R52, R53). -/
def Obligations.DecoderFollowsOpcodeMap : Prop :=
  (∀ w : Word, (decodeWord w).isSome = opcodeMap.any (fun row => row.covers w)) ∧
  (∀ (w : Word) (i : Instr), decodeWord w = some i → opcodeRow i ∈ opcodeMap ∧ (opcodeRow i).covers w = true) ∧
  (∀ (w : Word) (r r' : OpcodeRow), r ∈ opcodeMap → r' ∈ opcodeMap → r.covers w = true → r'.covers w = true →
    r = r')

/-! ## The step -/

/-- R61: the fetch reads the bytes at PC and PC + 1 modulo 4096, high byte first, and wraps from 0xFFF to 0x000;
it is a total function, so it cannot fault and needs no alignment. -/
def Obligations.FetchIsBigEndianAndWraps : Prop :=
  ∀ s : State,
    s.fetch16.toNat = 256 * (s.readMem (s.pc.toNat % 4096)).toNat + (s.readMem ((s.pc.toNat + 1) % 4096)).toNat ∧
    (s.pc.toNat % 4096 = 0xFFF → Word.lowByte s.fetch16 = s.readMem 0)

/-- `STEP` is total and is its four stages: the word from PC and PC + 1 modulo 4096; PC advanced by 2 modulo 4096; the
decoded instruction executed, or `UnknownOpcode` raised; then each nonzero timer down by one. When the bytes at PC
decode to an instruction, the step is `exec` of it, between advance and timer pass (derived: R60 to R65; that the
timer pass follows a stack fault and a waiting step is the spec's D6 and D19, log 4 and log 15; `exec` as the execute
stage alone is log 21). -/
def Obligations.StepRunsDecodedInstruction : Prop :=
  ∀ s : State,
    let w := Word.ofBytes (s.readMem (s.pc.toNat % 4096)) (s.readMem ((s.pc.toNat + 1) % 4096))
    let s1 : State := { s with pc := BitVec.ofNat 16 ((s.pc.toNat + 2) % 4096) }
    ∃ u : State,
      (∀ i : Instr, decodeWord w = some i → exec i s1 = .next u) ∧
      (decodeWord w = none → u = { s1 with diag := ⟨.unknownOpcode, w⟩ :: s1.diag }) ∧
      step s = .next { u with
        dt := if u.dt ≠ 0 then u.dt - 1 else u.dt
        st := if u.st ≠ 0 then u.st - 1 else u.st }

/-- R122: a fetched word that no row of R51 covers leaves PC advanced by 2 modulo 4096 and the timers counted, emits one
`DIAG(UnknownOpcode, w)` with the raw word, and changes nothing else, VF included. (The event is the newest entry of the
model's history, log 5.) -/
def Obligations.UnknownWordIsReported : Prop :=
  ∀ s : State, (∀ row ∈ opcodeMap, row.covers s.fetch16 = false) →
    ∃ t : State, step s = .next t ∧
      t.pc.toNat = (s.pc.toNat + 2) % 4096 ∧
      t.dt = (if s.dt ≠ 0 then s.dt - 1 else 0) ∧ t.st = (if s.st ≠ 0 then s.st - 1 else 0) ∧
      t.diag = ⟨.unknownOpcode, s.fetch16⟩ :: s.diag ∧
      SameExcept { pc := true, dt := true, st := true, diag := true } s t

/-- `STEP` gives the host at most one event, and exactly when: an unknown word, a call with a full stack, a return with an
empty one; the history grows by exactly that event (derived: R7, R67, R120, R121, R128, and the stack faults of D6,
log 4; the history is the model's, log 5). -/
def Obligations.StepReportsExactlyTheConditions : Prop :=
  ∀ s : State, ∃ (t : State) (e : Option Diag),
    step s = .next t ∧ operate .step s = .next (.event e, t) ∧ t.diag = e.toList ++ s.diag ∧
    (decodeWord s.fetch16 = none → e = some ⟨.unknownOpcode, s.fetch16⟩) ∧
    (∀ nnn, decodeWord s.fetch16 = some (.call nnn) → s.sp.val = 16 → e = some ⟨.stackOverflow, s.fetch16⟩) ∧
    (decodeWord s.fetch16 = some .ret → s.sp.val = 0 → e = some ⟨.stackUnderflow, 0x00EE⟩) ∧
    (∀ i, decodeWord s.fetch16 = some i → ¬ ((∃ nnn, i = .call nnn) ∧ s.sp.val = 16) →
      ¬ (i = .ret ∧ s.sp.val = 0) → e = none)

/-- A step reports nothing exactly when it meets none of the three conditions, so under the premise of R137 no behaviour
the spec decided for them is reached (derived: R121 to R124, R137). -/
def Obligations.QuietStepMeetsNoCondition : Prop :=
  ∀ s : State, quietStep s = true ↔ ∃ i : Instr, decodeWord s.fetch16 = some i ∧
    (∀ nnn, i = .call nnn → s.sp.val < 16) ∧ (i = .ret → 0 < s.sp.val)

/-- No run stops: from every state every number of steps gives a state (derived: R60, R68, R120). -/
def Obligations.RunsNeverStop : Prop :=
  ∀ (n : Nat) (s : State), ∃ t : State, Sys2Proof.core.run n s = .next t

/-- A run is safe, that is each of its steps reports nothing, exactly when the history at its end is the history at its
start: no step takes an event back (derived: R121, R137; the history is the model's, log 5). -/
def Obligations.SafeRunIsUnchangedHistory : Prop :=
  ∀ (n : Nat) (s : State), safeRun n s = true ↔ ∃ t : State, Sys2Proof.core.run n s = .next t ∧ t.diag = s.diag

/-- Every instruction completes in every state, and its execute stage changes nothing outside the Writes column of R24
(derived: R24 is the spec's own table, drawn from the instruction rules). -/
def Obligations.ExecWritesOnlyItsFootprint : Prop :=
  ∀ (i : Instr) (s : State), ∃ t : State, exec i s = .next t ∧ SameExcept (footprint i s) s t

/-- Who writes what, over a whole step: no step writes K or the parameter `FONT`; only clear-screen and draw write FB, only store-BCD and
store-registers-range write memory, only call and return write SP, only call writes a stack slot, only random-and
moves RNGIDX, only three instructions write I (derived: R4, R12, R14, R15, R18, R19, R21, R24). -/
def Obligations.OnlyTheseInstructionsWrite : Prop :=
  ∀ s : State, ∃ t : State, step s = .next t ∧
    t.k = s.k ∧ t.font = s.font ∧
    (t.fb ≠ s.fb → decodeWord s.fetch16 = some .clearScreen ∨
      ∃ x y n, decodeWord s.fetch16 = some (.drawSprite x y n)) ∧
    ((∃ a, t.readMem a ≠ s.readMem a) → ∃ x, decodeWord s.fetch16 = some (.storeBCD x) ∨
      decodeWord s.fetch16 = some (.storeRegistersRange x)) ∧
    (t.sp ≠ s.sp → decodeWord s.fetch16 = some .ret ∨ ∃ nnn, decodeWord s.fetch16 = some (.call nnn)) ∧
    (t.stk ≠ s.stk → ∃ nnn, decodeWord s.fetch16 = some (.call nnn)) ∧
    (t.rngidx ≠ s.rngidx → ∃ x kk, decodeWord s.fetch16 = some (.randomAnd x kk)) ∧
    (t.i ≠ s.i → (∃ nnn, decodeWord s.fetch16 = some (.setIndex nnn)) ∨
      ∃ x, decodeWord s.fetch16 = some (.addIndex x) ∨ decodeWord s.fetch16 = some (.setIndexToFontGlyph x))

/-- The timer pass runs in every step, on what the execute stage left: DT counts down from `V[x]` in the step of a
set-DT-from-VX, from DT in every other, and ST likewise; neither goes below 0 (derived: R65, R115, R119, D19). -/
def Obligations.TimersCountInEveryStep : Prop :=
  ∀ s : State, ∃ t : State, step s = .next t ∧
    (∀ x, decodeWord s.fetch16 = some (.setDTFromVX x) → t.dt.toNat = (s.reg x).toNat - 1) ∧
    ((∀ x, decodeWord s.fetch16 ≠ some (.setDTFromVX x)) → t.dt.toNat = s.dt.toNat - 1) ∧
    (∀ x, decodeWord s.fetch16 = some (.setSTFromVX x) → t.st.toNat = (s.reg x).toNat - 1) ∧
    ((∀ x, decodeWord s.fetch16 ≠ some (.setSTFromVX x)) → t.st.toNat = s.st.toNat - 1)

/-! ## Invariants -/

/-- Every step keeps the invariant: memory in canonical form, I at most 0xFFF, PC at most 0x10FE, every stack slot at
most 0xFFF (derived: R12, R13, R15 mark these ranges as derived; the canonical form is the model's own). -/
def Obligations.StepKeepsInvariant : Prop :=
  ∀ s t : State, s.Inv → step s = .next t → t.Inv

/-- The reset state meets the invariant, whatever the `FONT` (derived: R4, R23). -/
def Obligations.ResetMeetsInvariant : Prop := State.reset.Inv ∧ ∀ f : Font, (State.resetWith f).Inv

/-- The other operations of the host keep the invariant and the parameter `FONT` (derived: R4, R7, R18, R43, R108,
R140). -/
def Obligations.HostOperationsKeepInvariant : Prop :=
  ∀ (op : Operation) (s t : State) (o : Output), op ≠ .step → s.Inv → operate op s = .next (o, t) →
    t.Inv ∧ t.font = s.font

/-! ## What cannot be observed -/

/-- The diagnostic channel never feeds back: two states that differ only in the events already emitted step to states
that differ only there, having emitted the same new events (derived: R121, R22; the history is the model's, log 5). -/
def Obligations.DiagnosticsNeverFeedBack : Prop :=
  ∀ (s : State) (d : List Diag), ∃ (t : State) (new : List Diag),
    step s = .next t ∧ t.diag = new ++ s.diag ∧ step { s with diag := d } = .next { t with diag := new ++ d }

/-- ST drives nothing: two states that differ only in ST step to states that differ at most in ST (derived: R17,
R118, D24). -/
def Obligations.SoundTimerIsInvisible : Prop :=
  ∀ (s : State) (v : Byte), ∃ (t : State) (v' : Byte),
    step s = .next t ∧ step { s with st := v } = .next { t with st := v' }

/-- No instruction can tell a PC from the same PC modulo 4096: the step is the same (derived: R13, R62, R85, R93;
D8). -/
def Obligations.UnreducedPCIsInvisible : Prop :=
  ∀ s : State, step { s with pc := BitVec.ofNat 16 (s.pc.toNat % 4096) } = step s

/-! ## Memory -/

/-- R31: reads and writes act on the address modulo 4096, for every natural number: after a write an address that is
the same modulo 4096 reads the byte written, every other reads what it read, nothing else changes; the address after
0xFFF is 0x000. -/
def Obligations.MemoryReadsLastWrite : Prop :=
  ∀ (s : State) (a b : Nat) (v : Byte),
    s.readMem a = s.readMem (a % 4096) ∧
    s.readMem (0xFFF + 1) = s.readMem 0 ∧
    (a % 4096 = b % 4096 → (s.writeMem a v).readMem b = v) ∧
    SameExcept { mem := [a % 4096] } s (s.writeMem a v)

/-- Self-modifying code: two registers stored where PC points are the next word fetched, V0 its high byte (derived:
R34, R41). -/
def Obligations.StoredRegistersAreFetched : Prop :=
  ∀ (s : State) (x : Reg), 1 ≤ x.val → s.i.toNat % 4096 = s.pc.toNat % 4096 →
    ∃ t : State, exec (.storeRegistersRange x) s = .next t ∧
      Word.highByte t.fetch16 = s.reg 0 ∧ Word.lowByte t.fetch16 = s.reg 1

/-! ## Arithmetic and logic -/

/-- R70, R71, R72: load-immediate, add-immediate and copy write `V[x]` and nothing else; add-immediate wraps modulo 256
and writes no flag; all sixteen registers are legal, VF included, as data. (The encodings are those of R51: D2, log 1.) -/
def Obligations.LoadAddImmediateAndCopy : Prop :=
  ∀ (s : State) (x y : Reg) (kk : Byte),
    decodeWord (encodeXKK 0x6 x kk) = some (.loadImmediate x kk) ∧
    (∃ t, exec (.loadImmediate x kk) s = .next t ∧ t.reg x = kk ∧ SameExcept { regs := [x] } s t) ∧
    decodeWord (encodeXKK 0x7 x kk) = some (.addImmediate x kk) ∧
    (∃ t, exec (.addImmediate x kk) s = .next t ∧ (t.reg x).toNat = ((s.reg x).toNat + kk.toNat) % 256 ∧
      SameExcept { regs := [x] } s t) ∧
    decodeWord (encodeXYN 0x8 x y 0x0) = some (.copy x y) ∧
    (∃ t, exec (.copy x y) s = .next t ∧ t.reg x = s.reg y ∧ SameExcept { regs := [x] } s t)

/-- OR, AND, XOR: bitwise into `V[x]`, no flag, nothing else changes (derived: R73, R74, R75, with D17 for VF). -/
def Obligations.LogicOperations : Prop :=
  ∀ (s : State) (x y : Reg),
    (∃ t, exec (.or x y) s = .next t ∧
      (∀ j < 8, (t.reg x).getLsbD j = ((s.reg x).getLsbD j || (s.reg y).getLsbD j)) ∧
      SameExcept { regs := [x] } s t) ∧
    (∃ t, exec (.and x y) s = .next t ∧
      (∀ j < 8, (t.reg x).getLsbD j = ((s.reg x).getLsbD j && (s.reg y).getLsbD j)) ∧
      SameExcept { regs := [x] } s t) ∧
    (∃ t, exec (.xor x y) s = .next t ∧
      (∀ j < 8, (t.reg x).getLsbD j = ((s.reg x).getLsbD j != (s.reg y).getLsbD j)) ∧
      SameExcept { regs := [x] } s t)

/-- R76: add-registers: the sum modulo 256 in `V[x]`, and VF the carry unless x = 0xF, where the data write is last and
the carry is lost; the old VF is the addend when y = 0xF. (The encoding is R51's: D2, log 1.) -/
def Obligations.AddRegistersSetsCarry : Prop :=
  ∀ (s : State) (x y : Reg),
    decodeWord (encodeXYN 0x8 x y 0x4) = some (.addRegisters x y) ∧
    ∃ t, exec (.addRegisters x y) s = .next t ∧
      (t.reg x).toNat = ((s.reg x).toNat + (s.reg y).toNat) % 256 ∧
      (x ≠ VF → t.reg VF = if (s.reg x).toNat + (s.reg y).toNat > 255 then 1 else 0) ∧
      SameExcept { regs := [x, VF] } s t

/-- sub-registers and sub-registers-reverse: the difference modulo 256 in `V[x]`, VF 1 exactly when the minuend is
strictly greater (equal operands give 0), lost when x = 0xF; operands are the values before the flag write (derived:
R77, R79; the latch for x or y = 0xF is the spec's decision D5, log 3). -/
def Obligations.SubtractSetsStrictGreater : Prop :=
  ∀ (s : State) (x y : Reg),
    (∃ t, exec (.subRegisters x y) s = .next t ∧
      (t.reg x).toNat = ((s.reg x).toNat + 256 - (s.reg y).toNat) % 256 ∧
      (x ≠ VF → t.reg VF = if (s.reg x).toNat > (s.reg y).toNat then 1 else 0) ∧
      SameExcept { regs := [x, VF] } s t) ∧
    (∃ t, exec (.subRegistersReverse x y) s = .next t ∧
      (t.reg x).toNat = ((s.reg y).toNat + 256 - (s.reg x).toNat) % 256 ∧
      (x ≠ VF → t.reg VF = if (s.reg y).toNat > (s.reg x).toNat then 1 else 0) ∧
      SameExcept { regs := [x, VF] } s t)

/-- shift-right and shift-left: `V[x]` by one, VF the bit shifted out, lost when x = 0xF; y plays no part (derived:
R78, R80; the latch for x = 0xF is D5, log 3). -/
def Obligations.ShiftsMoveOneBitOut : Prop :=
  ∀ (s : State) (x y : Reg),
    (∃ t, exec (.shiftRight x y) s = .next t ∧
      (t.reg x).toNat = (s.reg x).toNat / 2 ∧
      (x ≠ VF → (t.reg VF).toNat = (s.reg x).toNat % 2) ∧
      SameExcept { regs := [x, VF] } s t) ∧
    (∃ t, exec (.shiftLeft x y) s = .next t ∧
      (t.reg x).toNat = 2 * (s.reg x).toNat % 256 ∧
      (x ≠ VF → (t.reg VF).toNat = (s.reg x).toNat / 128) ∧
      SameExcept { regs := [x, VF] } s t)

/-- random-and draws exactly one byte, the one at RNGIDX of the stream, whatever kk is, and keeps only the bits kk has;
it holds for every stream (derived: R21, R81, D9; the stream is a free value, log 7). -/
def Obligations.RandomAndDrawsOneByte : Prop :=
  ∀ (s : State) (x : Reg) (kk : Byte), ∃ t, exec (.randomAnd x kk) s = .next t ∧
    t.reg x = Config.randomSource s.rngidx &&& kk ∧ t.rngidx = s.rngidx + 1 ∧
    (∀ j, kk.getLsbD j = false → (t.reg x).getLsbD j = false) ∧
    SameExcept { regs := [x], rng := true } s t

/-! ## Control flow -/

/-- R86, R93: jump sets PC to nnn, odd addresses included; jump-with-offset sets it to nnn + V0, not reduced modulo
4096, and the word fetched next is the one at (nnn + V0) mod 4096, from which the advance
gives (nnn + V0 + 2) mod 4096; nothing else changes. (The encodings are R51's: D2, log 1.) -/
def Obligations.JumpsSetPC : Prop :=
  ∀ (s : State) (nnn : Addr),
    decodeWord (encodeNNN 0x1 nnn) = some (.jump nnn) ∧
    (∃ t, exec (.jump nnn) s = .next t ∧ t.pc.toNat = nnn.toNat ∧ SameExcept { pc := true } s t) ∧
    decodeWord (encodeNNN 0xB nnn) = some (.jumpWithOffset nnn) ∧
    (∃ t, exec (.jumpWithOffset nnn) s = .next t ∧ t.pc.toNat = nnn.toNat + (s.reg 0).toNat ∧
      t.fetch16 = Word.ofBytes (s.readMem ((nnn.toNat + (s.reg 0).toNat) % 4096))
        (s.readMem ((nnn.toNat + (s.reg 0).toNat + 1) % 4096)) ∧
      t.advance.pc.toNat = (nnn.toNat + (s.reg 0).toNat + 2) % 4096 ∧
      SameExcept { pc := true } s t)

/-- call with a free slot pushes PC (the advanced PC: the address after the call) into `STK[SP]`, moves SP up by one and
goes to nnn; return with a used slot moves SP down by one and goes to what `STK[SP]` then holds, in full; no other
slot and nothing else changes (derived: R14, R15, R87, R88). -/
def Obligations.CallPushesAndReturnPops : Prop :=
  ∀ (s : State) (nnn : Addr),
    (∀ h : s.sp.val < 16, ∃ t, exec (.call nnn) s = .next t ∧
      t.stk[s.sp.val]'h = s.pc ∧ t.sp.val = s.sp.val + 1 ∧ t.pc.toNat = nnn.toNat ∧
      SameExcept { pc := true, sp := true, slots := [⟨s.sp.val, h⟩] } s t) ∧
    (∀ k : Fin 16, s.sp.val = k.val + 1 → ∃ t, exec .ret s = .next t ∧
      t.sp.val = k.val ∧ t.pc = s.stk[k] ∧ SameExcept { pc := true, sp := true } s t)

/-- The stack conditions are reported no-ops: a call with SP = 16 and a return with SP = 0 emit one event with the
instruction's own word and change nothing else (derived: R123, R124, which rest on the spec's decision D6, log 4). -/
def Obligations.StackFaultsAreReportedNoOps : Prop :=
  ∀ (s : State) (nnn : Addr),
    (s.sp.val = 16 → ∃ t, exec (.call nnn) s = .next t ∧
      t.diag = ⟨.stackOverflow, encodeNNN 0x2 nnn⟩ :: s.diag ∧ SameExcept { diag := true } s t) ∧
    (s.sp.val = 0 → ∃ t, exec .ret s = .next t ∧
      t.diag = ⟨.stackUnderflow, 0x00EE⟩ :: s.diag ∧ SameExcept { diag := true } s t)

/-- Last in, first out: a return right after a call comes back to the instruction after the call with SP as before, and
only the one slot differs (derived: R14, R87, R88). -/
def Obligations.ReturnComesBackFromCall : Prop :=
  ∀ (s : State) (nnn : Addr) (h : s.sp.val < 16), ∃ t u : State,
    exec (.call nnn) s = .next t ∧ exec .ret t = .next u ∧ u.pc = s.pc ∧ u.sp = s.sp ∧
      SameExcept { slots := [⟨s.sp.val, h⟩] } s u

/-- `i` skips in `s` exactly when `cond` holds: it completes, PC moves on by a further 2 modulo 4096 if `cond` and stays
otherwise, and nothing else changes (R85). -/
def SkipsExactlyWhen (cond : Prop) (i : Instr) (s : State) : Prop :=
  ∃ t, exec i s = .next t ∧
    (cond → t.pc.toNat = (s.pc.toNat + 2) % 4096) ∧ (¬ cond → t.pc = s.pc) ∧ SameExcept { pc := true } s t

/-- The six skips: PC moves on by a further 2 modulo 4096 exactly when the condition holds, and nothing else changes;
a key skip tests the key of the low 4 bits of `V[x]` (derived: R85, R89 to R92, R110, R111, R113; D8, D11). -/
def Obligations.SkipsTestTheirCondition : Prop :=
  ∀ (s : State) (x y : Reg) (kk : Byte),
    SkipsExactlyWhen (s.reg x = kk) (.skipIfEqualImmediate x kk) s ∧
    SkipsExactlyWhen (s.reg x ≠ kk) (.skipIfNotEqualImmediate x kk) s ∧
    SkipsExactlyWhen (s.reg x = s.reg y) (.skipIfRegistersEqual x y) s ∧
    SkipsExactlyWhen (s.reg x ≠ s.reg y) (.skipIfRegistersNotEqual x y) s ∧
    SkipsExactlyWhen (∃ j : Fin 16, j.val = (s.reg x).toNat % 16 ∧ s.key j = true) (.skipIfKeyPressed x) s ∧
    SkipsExactlyWhen (∃ j : Fin 16, j.val = (s.reg x).toNat % 16 ∧ s.key j = false) (.skipIfKeyNotPressed x) s

/-- A step whose word is the skip `i` advances PC by 4 in total from the pre-fetch PC if `cond` holds and by 2 if not,
modulo 4096, and nothing else changes but the timers (R85). -/
def StepSkipsExactlyWhen (cond : Prop) (i : Instr) (s : State) : Prop :=
  decodeWord s.fetch16 = some i → ∃ t, step s = .next t ∧
    (cond → t.pc.toNat = (s.pc.toNat + 4) % 4096) ∧ (¬ cond → t.pc.toNat = (s.pc.toNat + 2) % 4096) ∧
    SameExcept { pc := true, dt := true, st := true } s t

/-- Over a whole step each of the six skips advances PC by 4 in total from the pre-fetch PC if it is taken and by 2 if
not, modulo 4096, and nothing else changes but the timers (derived: R85, R89 to R92, R110, R111, R113; D8, log 6;
D11, log 9). -/
def Obligations.TakenSkipAdvancesByFour : Prop :=
  ∀ (s : State) (x y : Reg) (kk : Byte),
    StepSkipsExactlyWhen (s.reg x = kk) (.skipIfEqualImmediate x kk) s ∧
    StepSkipsExactlyWhen (s.reg x ≠ kk) (.skipIfNotEqualImmediate x kk) s ∧
    StepSkipsExactlyWhen (s.reg x = s.reg y) (.skipIfRegistersEqual x y) s ∧
    StepSkipsExactlyWhen (s.reg x ≠ s.reg y) (.skipIfRegistersNotEqual x y) s ∧
    StepSkipsExactlyWhen (∃ j : Fin 16, j.val = (s.reg x).toNat % 16 ∧ s.key j = true) (.skipIfKeyPressed x) s ∧
    StepSkipsExactlyWhen (∃ j : Fin 16, j.val = (s.reg x).toNat % 16 ∧ s.key j = false) (.skipIfKeyNotPressed x) s

/-! ## Index register and memory access -/

/-- R95, R97: set-index sets I to nnn, any address; set-index-to-font-glyph sets it to five times the whole of `V[x]`,
not reduced to a digit; nothing else changes. (The encodings are R51's: D2, log 1.) -/
def Obligations.SetIndexAndFontGlyph : Prop :=
  ∀ (s : State) (nnn : Addr) (x : Reg),
    decodeWord (encodeNNN 0xA nnn) = some (.setIndex nnn) ∧
    (∃ t, exec (.setIndex nnn) s = .next t ∧ t.i.toNat = nnn.toNat ∧ SameExcept { index := true } s t) ∧
    decodeWord (encodeXKK 0xF x 0x29) = some (.setIndexToFontGlyph x) ∧
    (∃ t, exec (.setIndexToFontGlyph x) s = .next t ∧ t.i.toNat = (s.reg x).toNat * 5 ∧
      SameExcept { index := true } s t)

/-- R96: add-index: I + `V[x]` modulo 4096, and VF written in every case: 1 when the sum passes 0xFFF, else 0; with
x = 0xF the old VF is the addend. (The encoding is R51's: D2, log 1.) -/
def Obligations.AddIndexWrapsAndSetsVF : Prop :=
  ∀ (s : State) (x : Reg),
    decodeWord (encodeXKK 0xF x 0x1E) = some (.addIndex x) ∧
    ∃ t, exec (.addIndex x) s = .next t ∧
      t.i.toNat = (s.i.toNat + (s.reg x).toNat) % 4096 ∧
      t.reg VF = (if s.i.toNat + (s.reg x).toNat > 0xFFF then 1 else 0) ∧
      SameExcept { index := true, regs := [VF] } s t

/-- R98: store-BCD writes hundreds, tens and ones of `V[x]`, each a byte 0 to 9, to I, I + 1, I + 2 modulo 4096, and
changes no other byte and nothing else. (The encoding is R51's: D2, log 1.) -/
def Obligations.StoreBCDWritesThreeDigits : Prop :=
  ∀ (s : State) (x : Reg),
    decodeWord (encodeXKK 0xF x 0x33) = some (.storeBCD x) ∧
    ∃ t, exec (.storeBCD x) s = .next t ∧
      (t.readMem (dataAddress s.i 0)).toNat = (s.reg x).toNat / 100 ∧
      (t.readMem (dataAddress s.i 1)).toNat = (s.reg x).toNat / 10 % 10 ∧
      (t.readMem (dataAddress s.i 2)).toNat = (s.reg x).toNat % 10 ∧
      SameExcept { mem := [dataAddress s.i 0, dataAddress s.i 1, dataAddress s.i 2] } s t

/-- store-registers-range: V0 to `V[x]` at I, I + 1, ... modulo 4096, no other byte changes, nor does I or any register
(derived: R99, R101; D16). -/
def Obligations.StoreRangeWritesRegisters : Prop :=
  ∀ (s : State) (x : Reg), ∃ t, exec (.storeRegistersRange x) s = .next t ∧
    (∀ k : Reg, k.val ≤ x.val → t.readMem (dataAddress s.i k.val) = s.reg k) ∧
    SameExcept { mem := (List.range (x.val + 1)).map (dataAddress s.i) } s t

/-- load-registers-range: V0 to `V[x]` from I, I + 1, ... modulo 4096; registers above `V[x]`, I and memory are unchanged
(derived: R100, R101; D16). -/
def Obligations.LoadRangeReadsRegisters : Prop :=
  ∀ (s : State) (x : Reg), ∃ t, exec (.loadRegistersRange x) s = .next t ∧
    (∀ k : Reg, k.val ≤ x.val → t.reg k = s.readMem (dataAddress s.i k.val)) ∧
    SameExcept { regs := (List.finRange 16).filter (fun r => r ≤ x) } s t

/-- What store-registers-range saved, load-registers-range gives back: into any state whose memory reads alike and with that
I, the loaded registers are the stored ones (derived: R99, R100). -/
def Obligations.LoadRangeRestoresStoredRange : Prop :=
  ∀ (s u : State) (x : Reg), ∃ t : State, exec (.storeRegistersRange x) s = .next t ∧
    (u.i = t.i → (∀ a, u.readMem a = t.readMem a) → ∃ w : State, exec (.loadRegistersRange x) u = .next w ∧
      ∀ k : Reg, k.val ≤ x.val → w.reg k = s.reg k)

/-! ## Graphics -/

/-- R104: clear-screen makes every pixel 0 whatever it was, does not write VF, and changes nothing else. (The encoding
is R51's: D2, log 1.) -/
def Obligations.ClearScreenZeroesPixels : Prop :=
  decodeWord 0x00E0 = some .clearScreen ∧
  ∀ s : State, ∃ t, exec .clearScreen s = .next t ∧ (∀ y x, t.pixel y x = false) ∧ SameExcept { fb := true } s t

/-- draw sprite in closed form: every pixel is XORed with the sprite's bit for it, wrapping in both axes; VF is 1 exactly
when a pixel that was 1 is covered, else 0; nothing else changes (derived: R105, R106; bit order and the latch of the
coordinates for x or y = 0xF are the spec's decision D12, log 10). -/
def Obligations.DrawXorsSpriteAndReportsCollision : Prop :=
  ∀ (s : State) (x y : Reg) (n : Nat), n < 16 →
    ∃ t, exec (.drawSprite x y n) s = .next t ∧
      (∀ py px, t.pixel py px = (s.pixel py px != spriteCovers s (s.reg x) (s.reg y) n py px)) ∧
      (t.reg VF = 1 ∧ (∃ py px, s.pixel py px = true ∧ spriteCovers s (s.reg x) (s.reg y) n py px = true) ∨
       t.reg VF = 0 ∧ ∀ py px, s.pixel py px = true → spriteCovers s (s.reg x) (s.reg y) n py px = false) ∧
      SameExcept { regs := [VF], fb := true } s t

/-- Drawing the same sprite twice at the same coordinates restores the framebuffer, and the second draw sets VF exactly
when the first set some pixel (derived: R105, the source's "Draw collision" property; coordinates are the same when
the two position registers hold after the first draw what they held before it). The clause about VF is the model's
reading, log 24: R105's pseudocode and the source's sentence, not R105's bullet "if the sprite has any 1 bit". -/
def Obligations.DrawTwiceRestoresFramebuffer : Prop :=
  ∀ (s : State) (x y : Reg) (n : Nat), n < 16 → ∃ t : State, exec (.drawSprite x y n) s = .next t ∧
    (t.reg x = s.reg x → t.reg y = s.reg y → ∃ u : State, exec (.drawSprite x y n) t = .next u ∧
      (∀ py px, u.pixel py px = s.pixel py px) ∧
      (u.reg VF = 1 ↔ ∃ py px, s.pixel py px = false ∧ t.pixel py px = true))

/-! ## Input -/

/-- wait-for-key: with a key pressed `V[x]` takes the number of the lowest pressed key and PC stays advanced; with none
PC goes back by 2 modulo 4096 and nothing else changes (derived: R112; KeyPick is the spec's decision D10, log 8, the
reduction D8). -/
def Obligations.WaitForKeyTakesLowestKey : Prop :=
  ∀ (s : State) (x : Reg),
    (∀ j : Fin 16, s.key j = true → (∀ l : Fin 16, l < j → s.key l = false) →
      ∃ t, exec (.waitForKey x) s = .next t ∧ (t.reg x).toNat = j.val ∧ SameExcept { regs := [x] } s t) ∧
    ((∀ j : Fin 16, s.key j = false) →
      ∃ t, exec (.waitForKey x) s = .next t ∧ (t.pc.toNat + 2) % 4096 = s.pc.toNat % 4096 ∧ t.pc.toNat < 4096 ∧
        SameExcept { pc := true } s t)

/-- A step that waits makes no progress but counts the timers: PC is back at the instruction, modulo 4096, and the next
fetch gives the same word (derived: R65, R112; D8, D19). -/
def Obligations.WaitingStepStays : Prop :=
  ∀ (s : State) (x : Reg), decodeWord s.fetch16 = some (.waitForKey x) → (∀ j : Fin 16, s.key j = false) →
    ∃ t, step s = .next t ∧ t.pc.toNat = s.pc.toNat % 4096 ∧ t.fetch16 = s.fetch16 ∧
      t.dt.toNat = s.dt.toNat - 1 ∧ t.st.toNat = s.st.toNat - 1 ∧
      SameExcept { pc := true, dt := true, st := true } s t

/-! ## Timers -/

/-- R116, R117, R118: load-DT-into-VX reads DT before its own step's countdown; set-DT-from-VX and set-ST-from-VX write
the timer, which the same step then counts down; nothing else changes in the execute stage. (The encodings are R51's:
D2, log 1.) -/
def Obligations.TimerInstructions : Prop :=
  ∀ (s : State) (x : Reg),
    decodeWord (encodeXKK 0xF x 0x07) = some (.loadDTIntoVX x) ∧
    (∃ t, exec (.loadDTIntoVX x) s = .next t ∧ t.reg x = s.dt ∧ SameExcept { regs := [x] } s t) ∧
    (decodeWord s.fetch16 = some (.loadDTIntoVX x) →
      ∃ t, step s = .next t ∧ t.reg x = s.dt ∧ t.dt = if s.dt = 0 then 0 else s.dt - 1) ∧
    decodeWord (encodeXKK 0xF x 0x15) = some (.setDTFromVX x) ∧
    (∃ t, exec (.setDTFromVX x) s = .next t ∧ t.dt = s.reg x ∧ SameExcept { dt := true } s t) ∧
    (decodeWord s.fetch16 = some (.setDTFromVX x) →
      ∃ t, step s = .next t ∧ t.dt = if s.reg x = 0 then 0 else s.reg x - 1) ∧
    decodeWord (encodeXKK 0xF x 0x18) = some (.setSTFromVX x) ∧
    (∃ t, exec (.setSTFromVX x) s = .next t ∧ t.st = s.reg x ∧ SameExcept { st := true } s t) ∧
    (decodeWord s.fetch16 = some (.setSTFromVX x) →
      ∃ t, step s = .next t ∧ t.st = if s.reg x = 0 then 0 else s.reg x - 1)

/-! ## The host's operations -/

/-- R43, R125: an image of at most 0x0E00 bytes is copied verbatim to 0x200 on and nothing else changes; a longer one is
answered with `LoadError` and the state is as it was. -/
def Obligations.LoadCopiesImageOrFails : Prop :=
  ∀ (s : State) (bytes : List Byte),
    (bytes.length ≤ 0x0E00 → ∃ t : State, operate (.load bytes) s = .next (.loaded .ok, t) ∧
      (∀ (k : Nat) (h : k < bytes.length), t.readMem (0x200 + k) = bytes[k]) ∧
      SameExcept { mem := (List.range bytes.length).map (fun k => 0x200 + k) } s t) ∧
    (bytes.length > 0x0E00 → operate (.load bytes) s = .next (.loaded .loadError, s))

/-- `RESET` sets every piece of state to its reset value, whatever it was: registers, stack, keys, framebuffer, timers,
I, SP and RNGIDX zero, PC 0x200, `FONT` at 0x000 to 0x04F and every other byte zero, for every `FONT` the Machine has,
which stays (derived: R4, R23, R140; the zeros of memory are the spec's decision D14, log 12; the emptied history is the
model's, log 5; that the state carries `FONT` is log 11). -/
def Obligations.ResetSetsEverything : Prop :=
  ∀ s : State, ∃ t : State, operate .reset s = .next (.nothing, t) ∧
    (∀ r, t.reg r = 0) ∧ t.i = 0 ∧ t.pc = 0x200 ∧ t.sp.val = 0 ∧ (∀ j : Fin 16, t.stk[j] = 0) ∧
    t.dt = 0 ∧ t.st = 0 ∧ (∀ j, t.key j = false) ∧ (∀ y x, t.pixel y x = false) ∧ t.rngidx = 0 ∧ t.diag = [] ∧
    t.font = s.font ∧ (∀ (a : Nat) (h : a < 80), t.readMem a = s.font[a]) ∧
    (∀ a, 80 ≤ a → a < 4096 → t.readMem a = 0)

/-- `SET_KEYS` writes all sixteen flags and nothing else; `FB_READ` gives the 2048 pixels in row-major order and changes
nothing (derived: R18, R19, R108, D22). -/
def Obligations.SetKeysAndFramebufferRead : Prop :=
  ∀ (s : State) (keys : Keys),
    (∃ t : State, operate (.setKeys keys) s = .next (.nothing, t) ∧ (∀ j : Fin 16, t.key j = keys[j]) ∧
      t = { s with k := t.k }) ∧
    (∃ p : List Bool, operate .fbRead s = .next (.pixels p, s) ∧ p.length = 2048 ∧
      ∀ (y : Fin 32) (x : Fin 64), p[y.val * 64 + x.val]? = some (s.pixel y x))
end

