-- ==== Sys2Proof/Laws/State.lean ====
section
/-! SUPPORT. Laws/State.lean: one lemma per field per update of the state, and what the read accessors give after each
update, so that no later proof unfolds a record update. -/

namespace Sys2Proof.Machine

variable (s : State)

/-! ### setReg -/

@[simp] theorem State.setReg_v (x : Reg) (b : Byte) : (s.setReg x b).v = s.v.set x b := rfl
@[simp] theorem State.setReg_i (x : Reg) (b : Byte) : (s.setReg x b).i = s.i := rfl
@[simp] theorem State.setReg_pc (x : Reg) (b : Byte) : (s.setReg x b).pc = s.pc := rfl
@[simp] theorem State.setReg_sp (x : Reg) (b : Byte) : (s.setReg x b).sp = s.sp := rfl
@[simp] theorem State.setReg_stk (x : Reg) (b : Byte) : (s.setReg x b).stk = s.stk := rfl
@[simp] theorem State.setReg_dt (x : Reg) (b : Byte) : (s.setReg x b).dt = s.dt := rfl
@[simp] theorem State.setReg_st (x : Reg) (b : Byte) : (s.setReg x b).st = s.st := rfl
@[simp] theorem State.setReg_k (x : Reg) (b : Byte) : (s.setReg x b).k = s.k := rfl
@[simp] theorem State.setReg_fb (x : Reg) (b : Byte) : (s.setReg x b).fb = s.fb := rfl
@[simp] theorem State.setReg_mem (x : Reg) (b : Byte) : (s.setReg x b).mem = s.mem := rfl
@[simp] theorem State.setReg_font (x : Reg) (b : Byte) : (s.setReg x b).font = s.font := rfl
@[simp] theorem State.setReg_rngidx (x : Reg) (b : Byte) : (s.setReg x b).rngidx = s.rngidx := rfl
@[simp] theorem State.setReg_diag (x : Reg) (b : Byte) : (s.setReg x b).diag = s.diag := rfl
@[simp] theorem State.readMem_setReg (x : Reg) (b : Byte) (a' : Nat) : (s.setReg x b).readMem a' = s.readMem a' := rfl
@[simp] theorem State.pixel_setReg (x : Reg) (b : Byte) (y : Fin 32) (z : Fin 64) : (s.setReg x b).pixel y z = s.pixel y z := rfl
@[simp] theorem State.key_setReg (x : Reg) (b : Byte) (j : Fin 16) : (s.setReg x b).key j = s.key j := rfl

/-! ### writeMem -/

@[simp] theorem State.writeMem_v (a : Nat) (b : Byte) : (s.writeMem a b).v = s.v := rfl
@[simp] theorem State.writeMem_i (a : Nat) (b : Byte) : (s.writeMem a b).i = s.i := rfl
@[simp] theorem State.writeMem_pc (a : Nat) (b : Byte) : (s.writeMem a b).pc = s.pc := rfl
@[simp] theorem State.writeMem_sp (a : Nat) (b : Byte) : (s.writeMem a b).sp = s.sp := rfl
@[simp] theorem State.writeMem_stk (a : Nat) (b : Byte) : (s.writeMem a b).stk = s.stk := rfl
@[simp] theorem State.writeMem_dt (a : Nat) (b : Byte) : (s.writeMem a b).dt = s.dt := rfl
@[simp] theorem State.writeMem_st (a : Nat) (b : Byte) : (s.writeMem a b).st = s.st := rfl
@[simp] theorem State.writeMem_k (a : Nat) (b : Byte) : (s.writeMem a b).k = s.k := rfl
@[simp] theorem State.writeMem_fb (a : Nat) (b : Byte) : (s.writeMem a b).fb = s.fb := rfl
@[simp] theorem State.writeMem_mem (a : Nat) (b : Byte) : (s.writeMem a b).mem = Memory.write s.font s.mem a b := rfl
@[simp] theorem State.writeMem_font (a : Nat) (b : Byte) : (s.writeMem a b).font = s.font := rfl
@[simp] theorem State.writeMem_rngidx (a : Nat) (b : Byte) : (s.writeMem a b).rngidx = s.rngidx := rfl
@[simp] theorem State.writeMem_diag (a : Nat) (b : Byte) : (s.writeMem a b).diag = s.diag := rfl
@[simp] theorem State.reg_writeMem (a : Nat) (b : Byte) (r : Reg) : (s.writeMem a b).reg r = s.reg r := rfl
@[simp] theorem State.pixel_writeMem (a : Nat) (b : Byte) (y : Fin 32) (z : Fin 64) : (s.writeMem a b).pixel y z = s.pixel y z := rfl
@[simp] theorem State.key_writeMem (a : Nat) (b : Byte) (j : Fin 16) : (s.writeMem a b).key j = s.key j := rfl

/-! ### advance -/

@[simp] theorem State.advance_v : s.advance.v = s.v := rfl
@[simp] theorem State.advance_i : s.advance.i = s.i := rfl
@[simp] theorem State.advance_pc : s.advance.pc = pcPlus2 s.pc := rfl
@[simp] theorem State.advance_sp : s.advance.sp = s.sp := rfl
@[simp] theorem State.advance_stk : s.advance.stk = s.stk := rfl
@[simp] theorem State.advance_dt : s.advance.dt = s.dt := rfl
@[simp] theorem State.advance_st : s.advance.st = s.st := rfl
@[simp] theorem State.advance_k : s.advance.k = s.k := rfl
@[simp] theorem State.advance_fb : s.advance.fb = s.fb := rfl
@[simp] theorem State.advance_mem : s.advance.mem = s.mem := rfl
@[simp] theorem State.advance_font : s.advance.font = s.font := rfl
@[simp] theorem State.advance_rngidx : s.advance.rngidx = s.rngidx := rfl
@[simp] theorem State.advance_diag : s.advance.diag = s.diag := rfl
@[simp] theorem State.reg_advance (r : Reg) : s.advance.reg r = s.reg r := rfl
@[simp] theorem State.readMem_advance (a' : Nat) : s.advance.readMem a' = s.readMem a' := rfl
@[simp] theorem State.pixel_advance (y : Fin 32) (z : Fin 64) : s.advance.pixel y z = s.pixel y z := rfl
@[simp] theorem State.key_advance (j : Fin 16) : s.advance.key j = s.key j := rfl

/-! ### rewind -/

@[simp] theorem State.rewind_v : s.rewind.v = s.v := rfl
@[simp] theorem State.rewind_i : s.rewind.i = s.i := rfl
@[simp] theorem State.rewind_pc : s.rewind.pc = pcMinus2 s.pc := rfl
@[simp] theorem State.rewind_sp : s.rewind.sp = s.sp := rfl
@[simp] theorem State.rewind_stk : s.rewind.stk = s.stk := rfl
@[simp] theorem State.rewind_dt : s.rewind.dt = s.dt := rfl
@[simp] theorem State.rewind_st : s.rewind.st = s.st := rfl
@[simp] theorem State.rewind_k : s.rewind.k = s.k := rfl
@[simp] theorem State.rewind_fb : s.rewind.fb = s.fb := rfl
@[simp] theorem State.rewind_mem : s.rewind.mem = s.mem := rfl
@[simp] theorem State.rewind_font : s.rewind.font = s.font := rfl
@[simp] theorem State.rewind_rngidx : s.rewind.rngidx = s.rngidx := rfl
@[simp] theorem State.rewind_diag : s.rewind.diag = s.diag := rfl
@[simp] theorem State.reg_rewind (r : Reg) : s.rewind.reg r = s.reg r := rfl
@[simp] theorem State.readMem_rewind (a' : Nat) : s.rewind.readMem a' = s.readMem a' := rfl
@[simp] theorem State.pixel_rewind (y : Fin 32) (z : Fin 64) : s.rewind.pixel y z = s.pixel y z := rfl
@[simp] theorem State.key_rewind (j : Fin 16) : s.rewind.key j = s.key j := rfl

/-! ### raise -/

@[simp] theorem State.raise_v (d : DiagKind) (w : Word) : (s.raise d w).v = s.v := rfl
@[simp] theorem State.raise_i (d : DiagKind) (w : Word) : (s.raise d w).i = s.i := rfl
@[simp] theorem State.raise_pc (d : DiagKind) (w : Word) : (s.raise d w).pc = s.pc := rfl
@[simp] theorem State.raise_sp (d : DiagKind) (w : Word) : (s.raise d w).sp = s.sp := rfl
@[simp] theorem State.raise_stk (d : DiagKind) (w : Word) : (s.raise d w).stk = s.stk := rfl
@[simp] theorem State.raise_dt (d : DiagKind) (w : Word) : (s.raise d w).dt = s.dt := rfl
@[simp] theorem State.raise_st (d : DiagKind) (w : Word) : (s.raise d w).st = s.st := rfl
@[simp] theorem State.raise_k (d : DiagKind) (w : Word) : (s.raise d w).k = s.k := rfl
@[simp] theorem State.raise_fb (d : DiagKind) (w : Word) : (s.raise d w).fb = s.fb := rfl
@[simp] theorem State.raise_mem (d : DiagKind) (w : Word) : (s.raise d w).mem = s.mem := rfl
@[simp] theorem State.raise_font (d : DiagKind) (w : Word) : (s.raise d w).font = s.font := rfl
@[simp] theorem State.raise_rngidx (d : DiagKind) (w : Word) : (s.raise d w).rngidx = s.rngidx := rfl
@[simp] theorem State.raise_diag (d : DiagKind) (w : Word) : (s.raise d w).diag = ⟨d, w⟩ :: s.diag := rfl
@[simp] theorem State.reg_raise (d : DiagKind) (w : Word) (r : Reg) : (s.raise d w).reg r = s.reg r := rfl
@[simp] theorem State.readMem_raise (d : DiagKind) (w : Word) (a' : Nat) : (s.raise d w).readMem a' = s.readMem a' := rfl
@[simp] theorem State.pixel_raise (d : DiagKind) (w : Word) (y : Fin 32) (z : Fin 64) : (s.raise d w).pixel y z = s.pixel y z := rfl
@[simp] theorem State.key_raise (d : DiagKind) (w : Word) (j : Fin 16) : (s.raise d w).key j = s.key j := rfl

/-! ### timerPass -/

@[simp] theorem State.timerPass_v : s.timerPass.v = s.v := rfl
@[simp] theorem State.timerPass_i : s.timerPass.i = s.i := rfl
@[simp] theorem State.timerPass_pc : s.timerPass.pc = s.pc := rfl
@[simp] theorem State.timerPass_sp : s.timerPass.sp = s.sp := rfl
@[simp] theorem State.timerPass_stk : s.timerPass.stk = s.stk := rfl
@[simp] theorem State.timerPass_dt : s.timerPass.dt = countDown s.dt := rfl
@[simp] theorem State.timerPass_st : s.timerPass.st = countDown s.st := rfl
@[simp] theorem State.timerPass_k : s.timerPass.k = s.k := rfl
@[simp] theorem State.timerPass_fb : s.timerPass.fb = s.fb := rfl
@[simp] theorem State.timerPass_mem : s.timerPass.mem = s.mem := rfl
@[simp] theorem State.timerPass_font : s.timerPass.font = s.font := rfl
@[simp] theorem State.timerPass_rngidx : s.timerPass.rngidx = s.rngidx := rfl
@[simp] theorem State.timerPass_diag : s.timerPass.diag = s.diag := rfl
@[simp] theorem State.reg_timerPass (r : Reg) : s.timerPass.reg r = s.reg r := rfl
@[simp] theorem State.readMem_timerPass (a' : Nat) : s.timerPass.readMem a' = s.readMem a' := rfl
@[simp] theorem State.pixel_timerPass (y : Fin 32) (z : Fin 64) : s.timerPass.pixel y z = s.pixel y z := rfl
@[simp] theorem State.key_timerPass (j : Fin 16) : s.timerPass.key j = s.key j := rfl

/-! ### setKeys -/

@[simp] theorem State.setKeys_v (keys : Keys) : (s.setKeys keys).v = s.v := rfl
@[simp] theorem State.setKeys_i (keys : Keys) : (s.setKeys keys).i = s.i := rfl
@[simp] theorem State.setKeys_pc (keys : Keys) : (s.setKeys keys).pc = s.pc := rfl
@[simp] theorem State.setKeys_sp (keys : Keys) : (s.setKeys keys).sp = s.sp := rfl
@[simp] theorem State.setKeys_stk (keys : Keys) : (s.setKeys keys).stk = s.stk := rfl
@[simp] theorem State.setKeys_dt (keys : Keys) : (s.setKeys keys).dt = s.dt := rfl
@[simp] theorem State.setKeys_st (keys : Keys) : (s.setKeys keys).st = s.st := rfl
@[simp] theorem State.setKeys_k (keys : Keys) : (s.setKeys keys).k = keys := rfl
@[simp] theorem State.setKeys_fb (keys : Keys) : (s.setKeys keys).fb = s.fb := rfl
@[simp] theorem State.setKeys_mem (keys : Keys) : (s.setKeys keys).mem = s.mem := rfl
@[simp] theorem State.setKeys_font (keys : Keys) : (s.setKeys keys).font = s.font := rfl
@[simp] theorem State.setKeys_rngidx (keys : Keys) : (s.setKeys keys).rngidx = s.rngidx := rfl
@[simp] theorem State.setKeys_diag (keys : Keys) : (s.setKeys keys).diag = s.diag := rfl
@[simp] theorem State.reg_setKeys (keys : Keys) (r : Reg) : (s.setKeys keys).reg r = s.reg r := rfl
@[simp] theorem State.readMem_setKeys (keys : Keys) (a' : Nat) : (s.setKeys keys).readMem a' = s.readMem a' := rfl
@[simp] theorem State.pixel_setKeys (keys : Keys) (y : Fin 32) (z : Fin 64) : (s.setKeys keys).pixel y z = s.pixel y z := rfl

/-! ### The parameter `FONT` (R4) -/

@[simp] theorem State.resetWith_font (f : Font) : (State.resetWith f).font = f := rfl
@[simp] theorem State.resetWith_mem (f : Font) : (State.resetWith f).mem = [] := rfl
@[simp] theorem State.resetOp_font : s.resetOp.font = s.font := rfl

/-! ### Reading a register after a write (R10) -/

/-- A register holds what was last written to it, every other register what it held. -/
theorem State.reg_setReg (x r : Reg) (b : Byte) : (s.setReg x b).reg r = if r = x then b else s.reg r := by
  by_cases h : r = x
  · subst h; simp [State.reg, State.setReg]
  · have : x.val ≠ r.val := fun e => h (Fin.ext e.symm)
    simp [State.reg, State.setReg, h, this]

@[simp] theorem State.reg_setReg_same (x : Reg) (b : Byte) : (s.setReg x b).reg x = b := by
  simp [State.reg_setReg]

theorem State.reg_setReg_other {x r : Reg} (b : Byte) (h : r ≠ x) : (s.setReg x b).reg r = s.reg r := by
  simp [State.reg_setReg, h]

/-- The flag write and then the data write: the data is what `V[x]` holds, the flag what VF holds unless x = 0xF, and
no other register changes (R9). -/
theorem State.reg_setFlagThenReg (flag data : Byte) (x r : Reg) :
    (s.setFlagThenReg flag x data).reg r = if r = x then data else if r = VF then flag else s.reg r := by
  simp [State.setFlagThenReg, State.reg_setReg]

/-- Two general register files that read alike are the same. -/
theorem State.v_ext {s t : State} (h : ∀ r : Reg, s.reg r = t.reg r) : s.v = t.v := by
  refine Vector.ext fun j hj => ?_
  simpa [State.reg] using h ⟨j, hj⟩

end Sys2Proof.Machine
end

