-- ==== Sys2Proof/Laws/Memory.lean ====
section
/-! SUPPORT. Laws/Memory.lean: reading after writing, for every memory; every memory operation keeps the canonical form;
memories in canonical form that read alike are equal. -/

namespace Sys2Proof.Machine

variable {f : Font}

/-! ## Lookup after the parts of a write -/

theorem Memory.lookup_remove (m : Memory) (a b : Nat) :
    Memory.lookup f (Memory.remove m a) b = if b = a then unlistedByte f b else Memory.lookup f m b := by
  induction m with
  | nil => simp [Memory.remove, Memory.lookup]
  | cons c rest ih =>
    obtain ⟨d, w⟩ := c
    simp only [Memory.remove] at ih
    by_cases hd : d = a
    · subst hd
      by_cases hb : b = d <;> simp_all [Memory.remove, Memory.lookup]
    · by_cases hb : b = d <;> simp_all [Memory.remove, Memory.lookup]

theorem Memory.lookup_insert (m : Memory) (a b : Nat) (v : Byte) (h : ∀ c ∈ m, c.1 ≠ a) :
    Memory.lookup f (Memory.insert m a v) b = if b = a then v else Memory.lookup f m b := by
  induction m with
  | nil => simp [Memory.insert, Memory.lookup]
  | cons c rest ih =>
    obtain ⟨d, w⟩ := c
    have hd : d ≠ a := h (d, w) (by simp)
    have ih := ih fun c hc => h c (by simp [hc])
    by_cases hlt : a < d
    · simp [Memory.insert, Memory.lookup, hlt]
    · rw [Memory.insert, if_neg hlt]
      by_cases hb : b = d <;> simp_all [Memory.lookup]

theorem Memory.remove_ne (m : Memory) (a : Nat) : ∀ c ∈ Memory.remove m a, c.1 ≠ a := by
  simp [Memory.remove]

/-! ## Reads after writes (R31, R37) -/

/-- A read takes its address modulo 4096 (R31). -/
@[simp] theorem Memory.read_mod (m : Memory) (a : Nat) : Memory.read f m (a % 4096) = Memory.read f m a := by
  simp [Memory.read, Config.memSize]

/-- `MemRead` after `MemWrite`, for every memory and all natural numbers as addresses (R31, R37). -/
theorem Memory.read_write (m : Memory) (a b : Nat) (v : Byte) :
    Memory.read f (Memory.write f m a v) b = if b % 4096 = a % 4096 then v else Memory.read f m b := by
  unfold Memory.read Memory.write
  by_cases hv : v = unlistedByte f (a % Config.memSize)
  · rw [if_pos hv, Memory.lookup_remove]
    split <;> simp_all
  · rw [if_neg hv, Memory.lookup_insert _ _ _ _ (Memory.remove_ne m _), Memory.lookup_remove]
    split <;> simp_all

/-- A run of writes leaves every address outside the run alone. -/
theorem Memory.read_writeBytes_other (bs : List Byte) (m : Memory) (a b : Nat)
    (h : ∀ k < bs.length, b % 4096 ≠ (a + k) % 4096) :
    Memory.read f (Memory.writeBytes f m a bs) b = Memory.read f m b := by
  induction bs generalizing m a with
  | nil => rfl
  | cons x xs ih =>
    rw [Memory.writeBytes, ih, Memory.read_write, if_neg]
    · simpa using h 0 (by simp)
    · intro k hk
      have := h (k + 1) (by simpa using hk)
      rwa [show a + 1 + k = a + (k + 1) by omega]

/-- A run of at most 4096 writes leaves at the k-th address the k-th byte. -/
theorem Memory.read_writeBytes (bs : List Byte) (m : Memory) (a k : Nat) (hk : k < bs.length)
    (hlen : bs.length ≤ 4096) : Memory.read f (Memory.writeBytes f m a bs) (a + k) = bs[k] := by
  induction bs generalizing m a k with
  | nil => simp at hk
  | cons x xs ih =>
    simp only [List.length_cons] at hk hlen
    cases k with
    | zero =>
      rw [Memory.writeBytes, Memory.read_writeBytes_other, Memory.read_write]
      · simp
      · intro j hj; omega
    | succ j =>
      rw [Memory.writeBytes, show a + (j + 1) = a + 1 + j by omega, ih _ _ _ (by omega) (by omega)]
      simp

/-! ## The canonical form is kept -/

theorem Memory.wfFrom_cons (lo d : Nat) (w : Byte) (rest : Memory) :
    Memory.wfFrom f lo ((d, w) :: rest) = true ↔
      (lo ≤ d ∧ d < 4096 ∧ w ≠ unlistedByte f d) ∧ Memory.wfFrom f (d + 1) rest = true := by
  rw [Memory.wfFrom, Bool.and_eq_true, decide_eq_true_iff, show Config.memSize = 4096 from rfl]

theorem Memory.wfFrom_mono {lo lo' : Nat} (h : lo' ≤ lo) (m : Memory) (hm : Memory.wfFrom f lo m = true) :
    Memory.wfFrom f lo' m = true := by
  cases m with
  | nil => rfl
  | cons c rest =>
    obtain ⟨d, w⟩ := c
    rw [Memory.wfFrom_cons] at hm ⊢
    exact ⟨⟨by omega, hm.1.2⟩, hm.2⟩

theorem Memory.wfFrom_remove (m : Memory) (lo a : Nat) (h : Memory.wfFrom f lo m = true) :
    Memory.wfFrom f lo (Memory.remove m a) = true := by
  induction m generalizing lo with
  | nil => rfl
  | cons c rest ih =>
    obtain ⟨d, w⟩ := c
    rw [Memory.wfFrom_cons] at h
    have ih := ih (d + 1) h.2
    by_cases hd : d = a
    · have he : Memory.remove ((d, w) :: rest) a = Memory.remove rest a := by simp [Memory.remove, hd]
      rw [he]
      exact Memory.wfFrom_mono (by omega) _ ih
    · have he : Memory.remove ((d, w) :: rest) a = (d, w) :: Memory.remove rest a := by simp [Memory.remove, hd]
      rw [he, Memory.wfFrom_cons]
      exact ⟨h.1, ih⟩

theorem Memory.wfFrom_insert (m : Memory) (lo a : Nat) (v : Byte) (h : Memory.wfFrom f lo m = true)
    (hlo : lo ≤ a) (ha : a < 4096) (hv : v ≠ unlistedByte f a) (hne : ∀ c ∈ m, c.1 ≠ a) :
    Memory.wfFrom f lo (Memory.insert m a v) = true := by
  induction m generalizing lo with
  | nil => simp [Memory.insert, Memory.wfFrom, Config.memSize, hlo, ha, hv]
  | cons c rest ih =>
    obtain ⟨d, w⟩ := c
    have hd : d ≠ a := hne (d, w) (by simp)
    rw [Memory.wfFrom_cons] at h
    by_cases hlt : a < d
    · rw [Memory.insert, if_pos hlt, Memory.wfFrom_cons, Memory.wfFrom_cons]
      exact ⟨⟨hlo, ha, hv⟩, ⟨by omega, h.1.2⟩, h.2⟩
    · rw [Memory.insert, if_neg hlt, Memory.wfFrom_cons]
      exact ⟨h.1, ih (d + 1) h.2 (by omega) fun c hc => hne c (by simp [hc])⟩

/-- A write keeps the canonical form. -/
theorem Memory.wf_write (m : Memory) (a : Nat) (v : Byte) (h : Memory.wf f m = true) :
    Memory.wf f (Memory.write f m a v) = true := by
  unfold Memory.wf Memory.write at *
  split
  · exact Memory.wfFrom_remove _ _ _ h
  · next hv =>
    exact Memory.wfFrom_insert _ _ _ _ (Memory.wfFrom_remove _ _ _ h) (by omega)
      (Nat.mod_lt _ (by simp [Config.memSize])) hv (Memory.remove_ne _ _)

/-- A run of writes keeps the canonical form. -/
theorem Memory.wf_writeBytes (bs : List Byte) (m : Memory) (a : Nat) (h : Memory.wf f m = true) :
    Memory.wf f (Memory.writeBytes f m a bs) = true := by
  induction bs generalizing m a with
  | nil => exact h
  | cons x xs ih => exact ih _ _ (Memory.wf_write _ _ _ h)

/-- Reset memory is in canonical form, whatever the font. -/
theorem Memory.wf_resetWith : Memory.wf f (State.resetWith f).mem = true := rfl

/-! ## What an unlisted address reads as (R23, R32) -/

theorem unlistedByte_of_lt {a : Nat} (h : a < 80) : unlistedByte f a = f[a] := by simp [unlistedByte, h]

theorem unlistedByte_of_le {a : Nat} (h : 80 ≤ a) : unlistedByte f a = 0 := by
  simp [unlistedByte, Nat.not_lt.mpr h]

/-- Memory after reset reads as what an unlisted address reads as. -/
theorem State.readMem_resetWith {a : Nat} (h : a < 4096) : (State.resetWith f).readMem a = unlistedByte f a := by
  rw [State.readMem, Memory.read, show Config.memSize = 4096 from rfl, Nat.mod_eq_of_lt h]; rfl

/-! ## Equal memories are equal data -/

theorem Memory.lookup_below (m : Memory) (lo a : Nat) (h : Memory.wfFrom f lo m = true) (ha : a < lo) :
    Memory.lookup f m a = unlistedByte f a := by
  induction m generalizing lo with
  | nil => rfl
  | cons c rest ih =>
    obtain ⟨d, w⟩ := c
    rw [Memory.wfFrom_cons] at h
    rw [Memory.lookup, if_neg (by omega), ih (d + 1) h.2 (by omega)]

theorem Memory.ext_from (m m' : Memory) (lo : Nat) (h : Memory.wfFrom f lo m = true)
    (h' : Memory.wfFrom f lo m' = true) (heq : ∀ a, Memory.lookup f m a = Memory.lookup f m' a) : m = m' := by
  induction m generalizing lo m' with
  | nil =>
    cases m' with
    | nil => rfl
    | cons c rest =>
      obtain ⟨d, w⟩ := c
      rw [Memory.wfFrom_cons] at h'
      have := heq d
      simp [Memory.lookup] at this
      exact absurd this.symm h'.1.2.2
  | cons c rest ih =>
    obtain ⟨d, w⟩ := c
    rw [Memory.wfFrom_cons] at h
    cases m' with
    | nil =>
      have := heq d
      simp [Memory.lookup] at this
      exact absurd this h.1.2.2
    | cons c' rest' =>
      obtain ⟨d', w'⟩ := c'
      rw [Memory.wfFrom_cons] at h'
      have hd : d = d' := by
        rcases Nat.lt_trichotomy d d' with hlt | he | hlt
        · have e := heq d
          rw [Memory.lookup, if_pos rfl, Memory.lookup, if_neg (by omega),
            Memory.lookup_below rest' (d' + 1) d h'.2 (by omega)] at e
          exact absurd e h.1.2.2
        · exact he
        · have e := heq d'
          rw [Memory.lookup, if_neg (by omega), Memory.lookup_below rest (d + 1) d' h.2 (by omega),
            Memory.lookup, if_pos rfl] at e
          exact absurd e.symm h'.1.2.2
      subst hd
      have hw : w = w' := by simpa [Memory.lookup] using heq d
      subst hw
      congr 1
      refine ih rest' (d + 1) h.2 h'.2 fun a => ?_
      by_cases ha : a < d + 1
      · rw [Memory.lookup_below _ _ _ h.2 ha, Memory.lookup_below _ _ _ h'.2 ha]
      · have := heq a
        rwa [Memory.lookup, if_neg (by omega), Memory.lookup, if_neg (by omega)] at this

theorem Memory.lookup_above (m : Memory) (lo a : Nat) (h : Memory.wfFrom f lo m = true) (ha : 4096 ≤ a) :
    Memory.lookup f m a = unlistedByte f a := by
  induction m generalizing lo with
  | nil => rfl
  | cons c rest ih =>
    obtain ⟨d, w⟩ := c
    rw [Memory.wfFrom_cons] at h
    rw [Memory.lookup, if_neg (by omega), ih (d + 1) h.2]

/-- Two memories in canonical form that read alike at every address are the same data. -/
theorem Memory.ext_of_wf (m m' : Memory) (h : Memory.wf f m = true) (h' : Memory.wf f m' = true)
    (heq : ∀ a, Memory.read f m a = Memory.read f m' a) : m = m' := by
  refine Memory.ext_from m m' 0 h h' fun a => ?_
  by_cases ha : a < 4096
  · have := heq a
    rwa [Memory.read, Memory.read, Config.memSize, Nat.mod_eq_of_lt ha] at this
  · rw [Memory.lookup_above m 0 a h (by omega), Memory.lookup_above m' 0 a h' (by omega)]

/-! ## In a state -/

@[simp] theorem State.readMem_mod (s : State) (a : Nat) : s.readMem (a % 4096) = s.readMem a :=
  Memory.read_mod s.mem a

theorem State.readMem_writeMem (s : State) (a b : Nat) (v : Byte) :
    (s.writeMem a v).readMem b = if b % 4096 = a % 4096 then v else s.readMem b :=
  Memory.read_write s.mem a b v

/-- Two addresses that are the same modulo 4096 read the same byte. -/
theorem State.readMem_congr (s : State) {a b : Nat} (h : a % 4096 = b % 4096) : s.readMem a = s.readMem b := by
  rw [← State.readMem_mod s a, h, State.readMem_mod]

end Sys2Proof.Machine
end

