-- ==== Sys2Proof/Laws/Decode.lean ====
section
/-! SUPPORT. Laws/Decode.lean: every field of a word as a number, every format's word as a number, and the fields of an
encoded word (30_encoding.md R46, R47). -/

namespace Sys2Proof

/-! ## Words and fields as numbers -/

theorem toNat_encodeNNN (op : BitVec 4) (nnn : Addr) : (encodeNNN op nnn).toNat = op.toNat * 4096 + nnn.toNat := by
  rw [encodeNNN, BitVec.toNat_append, ← Nat.shiftLeft_add_eq_or_of_lt nnn.isLt, Nat.shiftLeft_eq]

theorem toNat_regField (x : Reg) : (regField x).toNat = x.val := by simp [regField]

theorem toNat_encodeXKK (op : BitVec 4) (x : Reg) (kk : Byte) : (encodeXKK op x kk).toNat = op.toNat * 4096 + x.val * 256 + kk.toNat := by
  rw [encodeXKK, BitVec.toNat_append, ← Nat.shiftLeft_add_eq_or_of_lt kk.isLt, BitVec.toNat_append, ← Nat.shiftLeft_add_eq_or_of_lt (regField x).isLt, toNat_regField, Nat.shiftLeft_eq, Nat.shiftLeft_eq]; omega

theorem toNat_encodeXYN (op : BitVec 4) (x y : Reg) (n : BitVec 4) : (encodeXYN op x y n).toNat = op.toNat * 4096 + x.val * 256 + y.val * 16 + n.toNat := by
  rw [encodeXYN, BitVec.toNat_append, ← Nat.shiftLeft_add_eq_or_of_lt n.isLt, BitVec.toNat_append, ← Nat.shiftLeft_add_eq_or_of_lt (regField y).isLt, BitVec.toNat_append, ← Nat.shiftLeft_add_eq_or_of_lt (regField x).isLt, toNat_regField, toNat_regField, Nat.shiftLeft_eq, Nat.shiftLeft_eq, Nat.shiftLeft_eq]; omega

theorem toNat_fieldOp (w : Word) : (fieldOp w).toNat = w.toNat / 4096 := by
  simp [fieldOp, BitVec.extractLsb'_toNat, Nat.shiftRight_eq_div_pow]; omega

theorem val_fieldX (w : Word) : (fieldX w).val = w.toNat / 256 % 16 := by
  simp [fieldX, BitVec.extractLsb'_toNat, Nat.shiftRight_eq_div_pow]

theorem val_fieldY (w : Word) : (fieldY w).val = w.toNat / 16 % 16 := by
  simp [fieldY, BitVec.extractLsb'_toNat, Nat.shiftRight_eq_div_pow]

theorem fieldN_eq (w : Word) : fieldN w = w.toNat % 16 := by
  simp [fieldN, BitVec.extractLsb'_toNat]

theorem toNat_fieldKK (w : Word) : (fieldKK w).toNat = w.toNat % 256 := by
  simp [fieldKK, BitVec.extractLsb'_toNat]

theorem toNat_fieldNNN (w : Word) : (fieldNNN w).toNat = w.toNat % 4096 := by
  simp [fieldNNN, BitVec.extractLsb'_toNat]

theorem toNat_highByte (w : Word) : (Word.highByte w).toNat = w.toNat / 256 := by
  simp [Word.highByte, BitVec.extractLsb'_toNat, Nat.shiftRight_eq_div_pow]; omega

theorem toNat_lowByte (w : Word) : (Word.lowByte w).toNat = w.toNat % 256 := by
  simp [Word.lowByte, BitVec.extractLsb'_toNat]

theorem toNat_ofBytes (h l : Byte) : (Word.ofBytes h l).toNat = h.toNat * 256 + l.toNat := by
  rw [Word.ofBytes, BitVec.toNat_append, ← Nat.shiftLeft_add_eq_or_of_lt l.isLt, Nat.shiftLeft_eq]

/-! ## The fields of an encoded word -/

@[simp] theorem fieldOp_encodeNNN (op : BitVec 4) (nnn : Addr) : fieldOp (encodeNNN op nnn) = op := by
  apply BitVec.eq_of_toNat_eq; rw [toNat_fieldOp, toNat_encodeNNN]; omega

@[simp] theorem fieldNNN_encodeNNN (op : BitVec 4) (nnn : Addr) : fieldNNN (encodeNNN op nnn) = nnn := by
  apply BitVec.eq_of_toNat_eq; rw [toNat_fieldNNN, toNat_encodeNNN]; omega

@[simp] theorem fieldOp_encodeXKK (op : BitVec 4) (x : Reg) (kk : Byte) : fieldOp (encodeXKK op x kk) = op := by
  apply BitVec.eq_of_toNat_eq; rw [toNat_fieldOp, toNat_encodeXKK]; omega

@[simp] theorem fieldX_encodeXKK (op : BitVec 4) (x : Reg) (kk : Byte) : fieldX (encodeXKK op x kk) = x := by
  apply Fin.ext; rw [val_fieldX, toNat_encodeXKK]; omega

@[simp] theorem fieldKK_encodeXKK (op : BitVec 4) (x : Reg) (kk : Byte) : fieldKK (encodeXKK op x kk) = kk := by
  apply BitVec.eq_of_toNat_eq; rw [toNat_fieldKK, toNat_encodeXKK]; omega

@[simp] theorem fieldOp_encodeXYN (op : BitVec 4) (x y : Reg) (n : BitVec 4) :
    fieldOp (encodeXYN op x y n) = op := by
  apply BitVec.eq_of_toNat_eq; rw [toNat_fieldOp, toNat_encodeXYN]; omega

@[simp] theorem fieldX_encodeXYN (op : BitVec 4) (x y : Reg) (n : BitVec 4) :
    fieldX (encodeXYN op x y n) = x := by
  apply Fin.ext; rw [val_fieldX, toNat_encodeXYN]; omega

@[simp] theorem fieldY_encodeXYN (op : BitVec 4) (x y : Reg) (n : BitVec 4) :
    fieldY (encodeXYN op x y n) = y := by
  apply Fin.ext; rw [val_fieldY, toNat_encodeXYN]; omega

@[simp] theorem fieldN_encodeXYN (op : BitVec 4) (x y : Reg) (n : BitVec 4) :
    fieldN (encodeXYN op x y n) = n.toNat := by
  rw [fieldN_eq, toNat_encodeXYN]; omega

/-! ## A word from its fields -/

theorem encodeNNN_fields (w : Word) : encodeNNN (fieldOp w) (fieldNNN w) = w := by
  apply BitVec.eq_of_toNat_eq; rw [toNat_encodeNNN, toNat_fieldOp, toNat_fieldNNN]; omega

theorem encodeXKK_fields (w : Word) : encodeXKK (fieldOp w) (fieldX w) (fieldKK w) = w := by
  apply BitVec.eq_of_toNat_eq; rw [toNat_encodeXKK, toNat_fieldOp, val_fieldX, toNat_fieldKK]; omega

theorem encodeXYN_fields (w : Word) :
    encodeXYN (fieldOp w) (fieldX w) (fieldY w) (BitVec.ofNat 4 (fieldN w)) = w := by
  apply BitVec.eq_of_toNat_eq
  rw [toNat_encodeXYN, toNat_fieldOp, val_fieldX, val_fieldY, BitVec.toNat_ofNat, fieldN_eq]; omega

/-- A word is its two bytes, high byte first (R34). -/
@[simp] theorem ofBytes_bytes (w : Word) : Word.ofBytes (Word.highByte w) (Word.lowByte w) = w := by
  apply BitVec.eq_of_toNat_eq; rw [toNat_ofBytes, toNat_highByte, toNat_lowByte]; omega

@[simp] theorem highByte_ofBytes (hi lo : Byte) : Word.highByte (Word.ofBytes hi lo) = hi := by
  apply BitVec.eq_of_toNat_eq; rw [toNat_highByte, toNat_ofBytes]; omega

@[simp] theorem lowByte_ofBytes (hi lo : Byte) : Word.lowByte (Word.ofBytes hi lo) = lo := by
  apply BitVec.eq_of_toNat_eq; rw [toNat_lowByte, toNat_ofBytes]; omega

/-! ## Masks and formats: a word of a format matches a row on exactly the bits the row compares -/

theorem encodeNNN_and_F000 (op : BitVec 4) (nnn : Addr) : encodeNNN op nnn &&& 0xF000 = encodeNNN op 0 := by
  rw [encodeNNN, show (0xF000 : Word) = (0xF#4 ++ 0#12 : BitVec 16) from rfl, BitVec.and_append,
    show op &&& 0xF#4 = op from BitVec.and_allOnes, BitVec.and_zero]; rfl

theorem encodeXKK_and_F000 (op : BitVec 4) (x : Reg) (kk : Byte) :
    encodeXKK op x kk &&& 0xF000 = encodeXKK op 0 0 := by
  rw [encodeXKK, show (0xF000 : Word) = (0xF#4 ++ 0#4 ++ 0#8 : BitVec 16) from rfl, BitVec.and_append,
    BitVec.and_append, show op &&& 0xF#4 = op from BitVec.and_allOnes, BitVec.and_zero, BitVec.and_zero]; rfl

theorem encodeXKK_and_F0FF (op : BitVec 4) (x : Reg) (kk : Byte) :
    encodeXKK op x kk &&& 0xF0FF = encodeXKK op 0 kk := by
  rw [encodeXKK, show (0xF0FF : Word) = (0xF#4 ++ 0#4 ++ 0xFF#8 : BitVec 16) from rfl, BitVec.and_append,
    BitVec.and_append, show op &&& 0xF#4 = op from BitVec.and_allOnes, BitVec.and_zero,
    show kk &&& 0xFF#8 = kk from BitVec.and_allOnes]; rfl

theorem encodeXYN_and_F00F (op : BitVec 4) (x y : Reg) (n : BitVec 4) :
    encodeXYN op x y n &&& 0xF00F = encodeXYN op 0 0 n := by
  rw [encodeXYN, show (0xF00F : Word) = (0xF#4 ++ 0#4 ++ 0#4 ++ 0xF#4 : BitVec 16) from rfl, BitVec.and_append,
    BitVec.and_append, BitVec.and_append, show op &&& 0xF#4 = op from BitVec.and_allOnes, BitVec.and_zero,
    BitVec.and_zero, show n &&& 0xF#4 = n from BitVec.and_allOnes]; rfl

theorem encodeXYN_and_F000 (op : BitVec 4) (x y : Reg) (n : BitVec 4) :
    encodeXYN op x y n &&& 0xF000 = encodeXYN op 0 0 0 := by
  rw [encodeXYN, show (0xF000 : Word) = (0xF#4 ++ 0#4 ++ 0#4 ++ 0#4 : BitVec 16) from rfl, BitVec.and_append,
    BitVec.and_append, BitVec.and_append, show op &&& 0xF#4 = op from BitVec.and_allOnes, BitVec.and_zero,
    BitVec.and_zero, BitVec.and_zero]; rfl

end Sys2Proof
end

