-- ==== Sys2Proof/Laws/Exec.lean ====
section
/-! SUPPORT. Laws/Exec.lean: for each shared operation one lemma that says what it does, and the frame of each shape of
update, for the proofs to cite instead of unfolding. -/

namespace Sys2Proof.Machine

/-! ## PC -/

/-- `(PC + 2) mod 4096` (R62, R85). -/
theorem toNat_pcPlus2 (pc : Word) : (pcPlus2 pc).toNat = (pc.toNat + 2) % 4096 := by
  simp only [pcPlus2, BitVec.toNat_ofNat, Config.memSize]; omega

/-- `(PC - 2) mod 4096` (R112). -/
theorem toNat_pcMinus2 (pc : Word) : (pcMinus2 pc).toNat = (pc.toNat + 4094) % 4096 := by
  have := pc.isLt
  simp only [pcMinus2, BitVec.toNat_ofNat, Config.memSize, BitVec.toNat_sub, show (2 : Word).toNat = 2 from rfl]
  omega

/-- The rewind undoes the advance, modulo 4096 (R112). -/
theorem toNat_pcMinus2_pcPlus2 (pc : Word) : (pcMinus2 (pcPlus2 pc)).toNat = pc.toNat % 4096 := by
  rw [toNat_pcMinus2, toNat_pcPlus2]; omega

@[simp] theorem toNat_addrWord (nnn : Addr) : (addrWord nnn).toNat = nnn.toNat := by
  simp [addrWord]; omega

/-- `nnn + V[0]` fits 16 bits and is not reduced (R93). -/
theorem toNat_offsetTarget (nnn : Addr) (b : Byte) : (offsetTarget nnn b).toNat = nnn.toNat + b.toNat := by
  have := nnn.isLt; have := b.isLt
  simp only [offsetTarget, BitVec.toNat_add, toNat_addrWord, BitVec.toNat_setWidth]; omega

theorem toNat_glyphAddress (a : Byte) : (glyphAddress a).toNat = a.toNat * 5 := by
  have := a.isLt
  simp only [glyphAddress, BitVec.toNat_ofNat, Config.glyphSize]; omega

theorem toNat_ofNat_dataAddress (i : Word) (k : Nat) :
    (BitVec.ofNat 16 (dataAddress i k)).toNat = (i.toNat + k) % 4096 := by
  simp only [dataAddress, BitVec.toNat_ofNat, Config.memSize]; omega

/-! ## The fetch -/

/-- The fetch reads only memory and PC modulo 4096 (R61). -/
theorem State.fetch16_congr {s t : State} (hm : ∀ a, t.readMem a = s.readMem a)
    (hp : t.pc.toNat % 4096 = s.pc.toNat % 4096) : t.fetch16 = s.fetch16 := by
  have h1 : s.readMem t.pc.toNat = s.readMem s.pc.toNat := State.readMem_congr _ hp
  have h2 : s.readMem (t.pc.toNat + 1) = s.readMem (s.pc.toNat + 1) := State.readMem_congr _ (by omega)
  rw [State.fetch16, State.fetch16, hm, hm, h1, h2]

/-! ## The skip -/

theorem State.skipIf_eq (s : State) (c : Bool) : s.skipIf c = { s with pc := if c then pcPlus2 s.pc else s.pc } := by
  cases c <;> rfl

/-! ## The call stack -/

theorem State.push_of_lt {s : State} (w : Word) (h : s.sp.val < 16) :
    s.push w = some { s with stk := s.stk.set s.sp.val w, sp := ⟨s.sp.val + 1, by omega⟩ } := by
  simp [State.push, h]

theorem State.push_full {s : State} (w : Word) (h : s.sp.val = 16) : s.push w = none := by
  simp [State.push, h]

theorem State.pop_of_pos {s : State} (k : Fin 16) (h : s.sp.val = k.val + 1) :
    s.pop = some (s.stk[k], { s with sp := k.castSucc }) := by
  have h' : 0 < s.sp.val := by omega
  simp only [State.pop, h', dite_true, Option.some.injEq, Prod.mk.injEq]
  constructor
  · simp [h]
  · congr 1
    apply Fin.ext
    simp [h]

theorem State.pop_empty {s : State} (h : s.sp.val = 0) : s.pop = none := by
  simp [State.pop, h]

/-! ## Ranges of registers -/

theorem mem_regRange (x r : Reg) : r ∈ regRange x ↔ r ≤ x := by
  simp only [regRange, List.mem_map, List.mem_range]
  constructor
  · rintro ⟨k, hk, rfl⟩
    rw [Fin.le_def, Fin.val_ofNat]; omega
  · intro h
    exact ⟨r.val, by rw [Fin.le_def] at h; omega, Fin.ext (by rw [Fin.val_ofNat]; omega)⟩

/-- Writing a list of registers, each from a value that does not depend on the writes. -/
theorem State.reg_foldl_setReg (f : Reg → Byte) (l : List Reg) (s : State) (r : Reg) :
    (l.foldl (fun t k => t.setReg k (f k)) s).reg r = if r ∈ l then f r else s.reg r := by
  induction l generalizing s with
  | nil => simp
  | cons k ks ih =>
    rw [List.foldl_cons, ih, State.reg_setReg]
    by_cases h1 : r ∈ ks <;> by_cases h2 : r = k <;> simp [h1, h2]

/-- Writing registers changes nothing but the registers. -/
theorem State.foldl_setReg_frame (f : Reg → Byte) (l : List Reg) (s : State) :
    l.foldl (fun t k => t.setReg k (f k)) s = { s with v := (l.foldl (fun t k => t.setReg k (f k)) s).v } := by
  induction l generalizing s with
  | nil => rfl
  | cons k ks ih => rw [List.foldl_cons, ih]; rfl

/-! ## The keys -/

theorem keyOf_val (a : Byte) : (keyOf a).val = a.toNat % 16 := by simp [keyOf]

/-- `KeyPick` gives the lowest-numbered pressed key (R112, D10). -/
theorem keyPick_eq_some (k : Keys) (j : Fin 16) :
    keyPick k = some j ↔ k[j] = true ∧ ∀ l : Fin 16, l < j → k[l] = false := by
  have hl : (List.range 16).map (Fin.ofNat 16) = List.finRange 16 := by decide
  rw [keyPick, hl, List.find?_eq_some_iff_getElem]
  constructor
  · rintro ⟨hj, i, hi, rfl, hlt⟩
    refine ⟨hj, fun l hlt' => ?_⟩
    simp only [List.getElem_finRange, Fin.lt_def] at hlt' hlt ⊢
    simpa using hlt l.val (by simpa using hlt')
  · rintro ⟨hj, hlt⟩
    refine ⟨hj, j.val, by simp, by simp, fun i hi => ?_⟩
    have hi' : i < 16 := by omega
    simpa using hlt ⟨i, hi'⟩ (by simpa [Fin.lt_def] using hi)

/-- `KeyPick` gives nothing exactly when no key is pressed. -/
theorem keyPick_eq_none (k : Keys) : keyPick k = none ↔ ∀ l : Fin 16, k[l] = false := by
  have hl : (List.range 16).map (Fin.ofNat 16) = List.finRange 16 := by decide
  rw [keyPick, hl, List.find?_eq_none]
  simp

/-! ## The timers -/

theorem toNat_countDown (t : Byte) : (countDown t).toNat = t.toNat - 1 := by
  unfold countDown
  split
  · simp_all
  · next h =>
    have h' : t.toNat ≠ 0 := fun e => h (BitVec.eq_of_toNat_eq (by simpa using e))
    have := t.isLt
    rw [BitVec.toNat_sub]; simp; omega

/-! ## The framebuffer -/

theorem Frame.pixel_toggle (f : Frame) (y y' : Fin 32) (x x' : Fin 64) :
    Frame.pixel (Frame.toggle f y x) y' x' = (Frame.pixel f y' x' != decide (y' = y ∧ x' = x)) := by
  by_cases hy : y' = y
  · subst hy
    by_cases hx : x' = x
    · subst hx; simp [Frame.pixel, Frame.toggle]
    · have : x.val ≠ x'.val := fun e => hx (Fin.ext e.symm)
      simp [Frame.pixel, Frame.toggle, hx, this]
  · have : y.val ≠ y'.val := fun e => hy (Fin.ext e.symm)
    simp [Frame.pixel, Frame.toggle, hy, this]

@[simp] theorem Frame.pixel_blank (y : Fin 32) (x : Fin 64) : Frame.pixel Frame.blank y x = false := by
  simp [Frame.pixel, Frame.blank]

/-- Two framebuffers whose pixels are the same are the same. -/
theorem Frame.ext_pixel {f g : Frame} (h : ∀ y x, Frame.pixel f y x = Frame.pixel g y x) : f = g := by
  refine Vector.ext fun i hi => Vector.ext fun j hj => ?_
  simpa [Frame.pixel] using h ⟨i, hi⟩ ⟨j, hj⟩

/-! ## The end of a step -/

@[simp] theorem endStep_next (s : State) : endStep (.next s) = .next s.timerPass := rfl

/-! ## The step by cases -/

/-- The execute stage of every instruction answers a next state. -/
theorem exec_total (i : Instr) (s : State) : ∃ t, exec i s = .next t := by
  cases i
  case ret => simp only [exec, execRet]; cases s.pop <;> exact ⟨_, rfl⟩
  case call => simp only [exec, execCall]; cases s.push s.pc <;> exact ⟨_, rfl⟩
  case waitForKey => simp only [exec, execWaitForKey]; cases keyPick s.k <;> exact ⟨_, rfl⟩
  all_goals exact ⟨_, rfl⟩

/-- A step on a word that decodes: the execute stage after the advance, then the timer pass. -/
theorem step_of_decode {s t : State} {i : Instr} (h : decodeWord s.fetch16 = some i)
    (ht : exec i s.advance = .next t) : step s = .next t.timerPass := by
  simp [step, h, ht]

/-- A step on an unknown word. -/
theorem step_of_unknown {s : State} (h : decodeWord s.fetch16 = none) :
    step s = .next (s.advance.raise .unknownOpcode s.fetch16).timerPass := by
  simp [step, h, execUnknown]

/-- What `STEP` gives the host is the at most one event the history grew by (R7, R121). -/
theorem emitted_of_append {s t : State} (e : Option Diag) (h : t.diag = e.toList ++ s.diag) : emitted s t = e := by
  cases e <;> simp [emitted, h]

theorem operate_step {s t : State} (e : Option Diag) (h : step s = .next t) (hd : t.diag = e.toList ++ s.diag) :
    operate .step s = .next (.event e, t) := by
  simp [operate, h, emitted_of_append e hd]

/-- A run of no step. -/
theorem run_zero (s : State) : Sys2Proof.core.run 0 s = .next s := rfl

/-- A run of one step more. -/
theorem run_succ {s t : State} (n : Nat) (h : step s = .next t) :
    Sys2Proof.core.run (n + 1) s = Sys2Proof.core.run n t := by
  have h' : Sys2Proof.core.step s = .next t := h
  simp only [Host.Core.run, h']

/-! ## Frames of the shapes of update -/

theorem SameExcept.refl (f : Footprint) (s : State) : SameExcept f s s := by constructor <;> simp

theorem SameExcept.setReg (s : State) (x : Reg) (b : Byte) : SameExcept { regs := [x] } s (s.setReg x b) := by
  constructor <;> simp +contextual [State.reg_setReg]

theorem SameExcept.setFlagThenReg (s : State) (flag data : Byte) (x : Reg) :
    SameExcept { regs := [x, VF] } s (s.setFlagThenReg flag x data) := by
  constructor <;> simp +contextual [State.setFlagThenReg, State.reg_setReg]

theorem SameExcept.withPC (s : State) (pc : Word) : SameExcept { pc := true } s { s with pc := pc } := by
  constructor <;> intros <;> first | rfl | contradiction

theorem SameExcept.raise (s : State) (d : DiagKind) (w : Word) : SameExcept { diag := true } s (s.raise d w) := by
  constructor <;> simp

theorem SameExcept.writeBytes (s : State) (a : Nat) (bs : List Byte) :
    SameExcept { mem := (List.range bs.length).map (fun k => (a + k) % 4096) } s
      { s with mem := Memory.writeBytes s.font s.mem a bs } := by
  constructor <;> intros <;> first | rfl | skip
  next b hb =>
    refine Memory.read_writeBytes_other bs s.mem a b fun k hk e => hb ?_
    simp only [List.mem_map, List.mem_range]
    exact ⟨k, hk, e.symm⟩

/-- A wider footprint. -/
theorem SameExcept.mono_regs {s t : State} {l l' : List Reg} (h : SameExcept { regs := l } s t)
    (hl : ∀ r, r ∈ l → r ∈ l') : SameExcept { regs := l' } s t :=
  ⟨fun r hr => h.regs r fun hm => hr (hl r hm), h.index, h.pc, h.sp, h.slots, h.dt, h.st, h.keys, h.font, h.fb, h.mem, h.rng,
    h.diag⟩

end Sys2Proof.Machine
end

