-- ==== Sys2Proof/Laws/Draw.lean ====
section
/-! SUPPORT. Laws/Draw.lean: draw sprite as one fold over the sprite's dots (44_graphics.md R105), and what such a fold
does to the pixels and to VF when no two dots fall on one pixel. -/

namespace Sys2Proof.Machine

/-- One dot of a sprite: the pixel it falls on and its bit. -/
structure Dot where
  y : Fin 32
  x : Fin 64
  bit : Bool

/-- Draw one dot. -/
def Dot.draw (s : State) (d : Dot) : State := s.drawPixel d.y d.x d.bit

theorem Dot.pixel_draw (s : State) (d : Dot) (y : Fin 32) (x : Fin 64) :
    (Dot.draw s d).pixel y x = (s.pixel y x != (d.bit && decide (y = d.y ∧ x = d.x))) := by
  unfold Dot.draw State.drawPixel
  split
  · next h => rw [State.pixel_setReg]; simp [State.pixel, Frame.pixel_toggle, h]
  · next h => simp [Bool.not_eq_true _ |>.mp h]

theorem Dot.reg_draw (s : State) (d : Dot) :
    (Dot.draw s d).reg VF = s.reg VF ||| flagByte (d.bit && s.pixel d.y d.x) := by
  unfold Dot.draw State.drawPixel
  split
  · next h => simp [h]
  · next h => simp [Bool.not_eq_true _ |>.mp h, flagByte]

/-- A dot changes VF and the framebuffer only. -/
theorem Dot.draw_frame (s : State) (d : Dot) : SameExcept { regs := [VF], fb := true } s (Dot.draw s d) := by
  unfold Dot.draw State.drawPixel
  split
  · constructor <;> simp +contextual [State.reg_setReg] <;> intros <;> rfl
  · exact SameExcept.refl _ _

theorem flagByte_or (a b : Bool) : flagByte a ||| flagByte b = flagByte (a || b) := by
  cases a <;> cases b <;> rfl

/-- Frames with the same footprint compose. -/
theorem SameExcept.trans {f : Footprint} {s t u : State} (h : SameExcept f s t) (h' : SameExcept f t u) :
    SameExcept f s u :=
  ⟨fun r hr => (h'.regs r hr).trans (h.regs r hr), fun e => (h'.index e).trans (h.index e),
    fun e => (h'.pc e).trans (h.pc e), fun e => (h'.sp e).trans (h.sp e),
    fun k hk => (h'.slots k hk).trans (h.slots k hk), fun e => (h'.dt e).trans (h.dt e),
    fun e => (h'.st e).trans (h.st e), h'.keys.trans h.keys, h'.font.trans h.font, fun e => (h'.fb e).trans (h.fb e),
    fun a ha => (h'.mem a ha).trans (h.mem a ha), fun e => (h'.rng e).trans (h.rng e),
    fun e => (h'.diag e).trans (h.diag e)⟩

theorem Dot.foldl_frame (l : List Dot) (s : State) :
    SameExcept { regs := [VF], fb := true } s (l.foldl Dot.draw s) := by
  induction l generalizing s with
  | nil => exact SameExcept.refl _ _
  | cons d ds ih => exact (Dot.draw_frame s d).trans (ih _)

/-- Drawing dots writes the general registers and the framebuffer only, as data. -/
theorem Dot.foldl_only (l : List Dot) (s : State) :
    l.foldl Dot.draw s = { s with v := (l.foldl Dot.draw s).v, fb := (l.foldl Dot.draw s).fb } := by
  induction l generalizing s with
  | nil => rfl
  | cons d ds ih =>
    rw [List.foldl_cons, ih]
    unfold Dot.draw State.drawPixel
    split <;> rfl

/-- Every dot falls on a pixel of its own. -/
abbrev Dot.Apart (l : List Dot) : Prop := l.Pairwise (fun d e => ¬ (d.y = e.y ∧ d.x = e.x))

theorem Dot.pixel_foldl (l : List Dot) (s : State) (h : Dot.Apart l) (y : Fin 32) (x : Fin 64) :
    (l.foldl Dot.draw s).pixel y x = (s.pixel y x != l.any (fun d => d.bit && decide (y = d.y ∧ x = d.x))) := by
  induction l generalizing s with
  | nil => simp
  | cons d ds ih =>
    have h := List.pairwise_cons.mp h
    rw [List.foldl_cons, ih _ h.2, Dot.pixel_draw, List.any_cons]
    by_cases hd : y = d.y ∧ x = d.x
    · have : ds.any (fun e => e.bit && decide (y = e.y ∧ x = e.x)) = false := by
        rw [List.any_eq_false]
        intro e he
        have := h.1 e he
        rw [hd.1, hd.2]
        simp [this]
      rw [this]
      simp
    · simp [hd]

theorem Dot.reg_foldl (l : List Dot) (s : State) (h : Dot.Apart l) :
    (l.foldl Dot.draw s).reg VF = s.reg VF ||| flagByte (l.any (fun d => d.bit && s.pixel d.y d.x)) := by
  induction l generalizing s with
  | nil => simp [flagByte]
  | cons d ds ih =>
    have h := List.pairwise_cons.mp h
    have hany : ds.any (fun e => e.bit && (Dot.draw s d).pixel e.y e.x) = ds.any (fun e => e.bit && s.pixel e.y e.x) := by
      rw [Bool.eq_iff_iff, List.any_eq_true, List.any_eq_true]
      refine exists_congr fun e => and_congr_right fun he => ?_
      have hne : ¬ (e.y = d.y ∧ e.x = d.x) := fun hh => h.1 e he ⟨hh.1.symm, hh.2.symm⟩
      rw [Dot.pixel_draw]
      simp [hne]
    rw [List.foldl_cons, ih _ h.2, Dot.reg_draw, List.any_cons, hany, BitVec.or_assoc, flagByte_or]

/-- The dots of row `r`: columns 0 to 7 of its byte. -/
def rowDots (s : State) (cx cy : Byte) (r : Nat) : List Dot :=
  (List.range 8).map fun c => ⟨pixelRow cy r, pixelColumn cx c, spriteBit (s.readMem (s.i.toNat + r)) c⟩

/-- The dots of a sprite of `n` rows at I. -/
def spriteDots (s : State) (cx cy : Byte) (n : Nat) : List Dot := (List.range n).flatMap (rowDots s cx cy)

/-- draw sprite is the fold over the sprite's dots after VF is reset; the sprite bytes are the same throughout, for
drawing writes no memory. -/
theorem execDrawSprite_eq (x y : Reg) (n : Nat) (s : State) :
    execDrawSprite x y n s = .next ((spriteDots s (s.reg x) (s.reg y) n).foldl Dot.draw (s.setReg VF 0)) := by
  have key : ∀ (l : List Nat) (t : State), (∀ a, t.readMem a = s.readMem a) →
      l.foldl (fun t r => t.drawRow (s.reg x) (pixelRow (s.reg y) r) (t.readMem (s.i.toNat + r))) t =
        (l.flatMap (rowDots s (s.reg x) (s.reg y))).foldl Dot.draw t := by
    intro l
    induction l with
    | nil => intro t _; rfl
    | cons r rs ih =>
      intro t ht
      have hrow : t.drawRow (s.reg x) (pixelRow (s.reg y) r) (t.readMem (s.i.toNat + r)) =
          (rowDots s (s.reg x) (s.reg y) r).foldl Dot.draw t := by
        rw [State.drawRow, rowDots, List.foldl_map, ht]; rfl
      rw [List.foldl_cons, List.flatMap_cons, List.foldl_append, hrow, ih]
      intro a
      rw [(Dot.foldl_frame _ t).mem a (by simp), ht]
  rw [execDrawSprite, key _ _ fun a => State.readMem_setReg s VF 0 a]; rfl

/-- The pixel rows and columns of a sprite of at most 32 rows and 8 columns are all different. -/
theorem pixelRow_inj {cy : Byte} {r r' : Nat} (h : r < 32) (h' : r' < 32) (e : pixelRow cy r = pixelRow cy r') :
    r = r' := by
  have := congrArg Fin.val e
  simp only [pixelRow, Fin.val_ofNat] at this
  omega

theorem pixelColumn_inj {cx : Byte} {c c' : Nat} (h : c < 64) (h' : c' < 64)
    (e : pixelColumn cx c = pixelColumn cx c') : c = c' := by
  have := congrArg Fin.val e
  simp only [pixelColumn, Fin.val_ofNat] at this
  omega

/-- A draw of at most 15 rows never collides with itself (R105). -/
theorem spriteDots_apart (s : State) (cx cy : Byte) (n : Nat) (hn : n < 16) : Dot.Apart (spriteDots s cx cy n) := by
  unfold Dot.Apart spriteDots
  rw [List.pairwise_flatMap]
  constructor
  · intro r _
    rw [rowDots, List.pairwise_map]
    refine List.Pairwise.imp_of_mem ?_ (List.pairwise_lt_range (n := 8))
    intro c c' hc hc' hlt e
    have := pixelColumn_inj (by simp at hc; omega) (by simp at hc'; omega) e.2
    omega
  · refine List.Pairwise.imp_of_mem ?_ (List.pairwise_lt_range (n := n))
    intro r r' hr hr' hlt d hd e he h
    simp only [rowDots, List.mem_map, List.mem_range] at hd he hr hr'
    obtain ⟨c, _, rfl⟩ := hd
    obtain ⟨c', _, rfl⟩ := he
    have := pixelRow_inj (by omega) (by omega) h.1
    omega

theorem mem_spriteDots (s : State) (cx cy : Byte) (n : Nat) (d : Dot) :
    d ∈ spriteDots s cx cy n ↔
      ∃ r < n, ∃ c < 8, d = ⟨pixelRow cy r, pixelColumn cx c, spriteBit (s.readMem (s.i.toNat + r)) c⟩ := by
  simp only [spriteDots, List.mem_flatMap, rowDots, List.mem_map, List.mem_range]
  constructor
  · rintro ⟨r, hr, c, hc, rfl⟩; exact ⟨r, hr, c, hc, rfl⟩
  · rintro ⟨r, hr, c, hc, rfl⟩; exact ⟨r, hr, c, hc, rfl⟩

/-- Row `r` of a sprite lands on `py` exactly when `r` is the row of the closed form. -/
theorem pixelRow_eq_iff (cy : Byte) (r : Nat) (py : Fin 32) (hr : r < 32) :
    py = pixelRow cy r ↔ r = spriteRow cy py := by
  have := py.isLt
  rw [Fin.ext_iff]
  simp only [pixelRow, spriteRow, Fin.val_ofNat]
  omega

theorem pixelColumn_eq_iff (cx : Byte) (c : Nat) (px : Fin 64) (hc : c < 64) :
    px = pixelColumn cx c ↔ c = spriteColumn cx px := by
  have := px.isLt
  rw [Fin.ext_iff]
  simp only [pixelColumn, spriteColumn, Fin.val_ofNat]
  omega

end Sys2Proof.Machine
end

