-- ==== Sys2Proof/Laws/PerInstr.lean ====
section
/-! SUPPORT. Laws/PerInstr.lean: statements about every instruction as syntax, one lemma per constructor. -/

namespace Sys2Proof.Laws.Pattern

/-- The word of an instruction matches the Match and Mask columns of its row of R51. -/
def Statement (i : Instr) : Prop := (opcodeRow i).covers (encode i) = true

theorem of_mask (i : Instr) (h : encode i &&& (opcodeRow i).mask = (opcodeRow i).pattern) : Statement i :=
  beq_iff_eq.mpr h

theorem clearScreen : Statement (.clearScreen) := rfl

theorem ret : Statement (.ret) := rfl

theorem jump (nnn : Addr) : Statement (.jump nnn) :=
  of_mask _ (encodeNNN_and_F000 _ _)

theorem call (nnn : Addr) : Statement (.call nnn) :=
  of_mask _ (encodeNNN_and_F000 _ _)

theorem skipIfEqualImmediate (x : Reg) (kk : Byte) : Statement (.skipIfEqualImmediate x kk) :=
  of_mask _ (encodeXKK_and_F000 _ _ _)

theorem skipIfNotEqualImmediate (x : Reg) (kk : Byte) : Statement (.skipIfNotEqualImmediate x kk) :=
  of_mask _ (encodeXKK_and_F000 _ _ _)

theorem skipIfRegistersEqual (x y : Reg) : Statement (.skipIfRegistersEqual x y) :=
  of_mask _ (encodeXYN_and_F00F _ _ _ _)

theorem skipIfRegistersNotEqual (x y : Reg) : Statement (.skipIfRegistersNotEqual x y) :=
  of_mask _ (encodeXYN_and_F00F _ _ _ _)

theorem loadImmediate (x : Reg) (kk : Byte) : Statement (.loadImmediate x kk) :=
  of_mask _ (encodeXKK_and_F000 _ _ _)

theorem addImmediate (x : Reg) (kk : Byte) : Statement (.addImmediate x kk) :=
  of_mask _ (encodeXKK_and_F000 _ _ _)

theorem copy (x y : Reg) : Statement (.copy x y) :=
  of_mask _ (encodeXYN_and_F00F _ _ _ _)

theorem or (x y : Reg) : Statement (.or x y) :=
  of_mask _ (encodeXYN_and_F00F _ _ _ _)

theorem and (x y : Reg) : Statement (.and x y) :=
  of_mask _ (encodeXYN_and_F00F _ _ _ _)

theorem xor (x y : Reg) : Statement (.xor x y) :=
  of_mask _ (encodeXYN_and_F00F _ _ _ _)

theorem addRegisters (x y : Reg) : Statement (.addRegisters x y) :=
  of_mask _ (encodeXYN_and_F00F _ _ _ _)

theorem subRegisters (x y : Reg) : Statement (.subRegisters x y) :=
  of_mask _ (encodeXYN_and_F00F _ _ _ _)

theorem shiftRight (x y : Reg) : Statement (.shiftRight x y) :=
  of_mask _ (encodeXYN_and_F00F _ _ _ _)

theorem subRegistersReverse (x y : Reg) : Statement (.subRegistersReverse x y) :=
  of_mask _ (encodeXYN_and_F00F _ _ _ _)

theorem shiftLeft (x y : Reg) : Statement (.shiftLeft x y) :=
  of_mask _ (encodeXYN_and_F00F _ _ _ _)

theorem setIndex (nnn : Addr) : Statement (.setIndex nnn) :=
  of_mask _ (encodeNNN_and_F000 _ _)

theorem jumpWithOffset (nnn : Addr) : Statement (.jumpWithOffset nnn) :=
  of_mask _ (encodeNNN_and_F000 _ _)

theorem randomAnd (x : Reg) (kk : Byte) : Statement (.randomAnd x kk) :=
  of_mask _ (encodeXKK_and_F000 _ _ _)

theorem drawSprite (x y : Reg) (n : Nat) : Statement (.drawSprite x y n) :=
  of_mask _ (encodeXYN_and_F000 _ _ _ _)

theorem skipIfKeyPressed (x : Reg) : Statement (.skipIfKeyPressed x) :=
  of_mask _ (encodeXKK_and_F0FF _ _ _)

theorem skipIfKeyNotPressed (x : Reg) : Statement (.skipIfKeyNotPressed x) :=
  of_mask _ (encodeXKK_and_F0FF _ _ _)

theorem loadDTIntoVX (x : Reg) : Statement (.loadDTIntoVX x) :=
  of_mask _ (encodeXKK_and_F0FF _ _ _)

theorem waitForKey (x : Reg) : Statement (.waitForKey x) :=
  of_mask _ (encodeXKK_and_F0FF _ _ _)

theorem setDTFromVX (x : Reg) : Statement (.setDTFromVX x) :=
  of_mask _ (encodeXKK_and_F0FF _ _ _)

theorem setSTFromVX (x : Reg) : Statement (.setSTFromVX x) :=
  of_mask _ (encodeXKK_and_F0FF _ _ _)

theorem addIndex (x : Reg) : Statement (.addIndex x) :=
  of_mask _ (encodeXKK_and_F0FF _ _ _)

theorem setIndexToFontGlyph (x : Reg) : Statement (.setIndexToFontGlyph x) :=
  of_mask _ (encodeXKK_and_F0FF _ _ _)

theorem storeBCD (x : Reg) : Statement (.storeBCD x) :=
  of_mask _ (encodeXKK_and_F0FF _ _ _)

theorem storeRegistersRange (x : Reg) : Statement (.storeRegistersRange x) :=
  of_mask _ (encodeXKK_and_F0FF _ _ _)

theorem loadRegistersRange (x : Reg) : Statement (.loadRegistersRange x) :=
  of_mask _ (encodeXKK_and_F0FF _ _ _)

end Sys2Proof.Laws.Pattern
end

