-- ==== Sys2Proof/Tests/Slice0.lean ====
section
/-! SUPPORT. Tests/Slice0.lean: the WellFormed smoke test, every constructor's decoding from a word written out from
R51, single steps with the results of 95_test_vectors.md, and for every obligation with premises a theorem
`test_witness_...` whose state and operands meet them. -/

namespace Sys2Proof.Tests
open Sys2Proof Sys2Proof.Machine

/-! ## Helpers -/

/-- The reset state with registers set. -/
def withRegs (l : List (Reg × Byte)) : State := l.foldl (fun s p => s.setReg p.1 p.2) State.reset

/-- The reset state with bytes in memory from an address on. -/
def withBytes (a : Nat) (bs : List Byte) : State :=
  { State.reset with mem := Memory.writeBytes defaultFont [] a bs }

/-- The keys of a list pressed. -/
def pressed (l : List (Fin 16)) : Keys := l.foldl (fun (k : Keys) (j : Fin 16) => k.set j true) State.reset.k

/-- One step of a state with a word at its PC, and a question about the state after. -/
def after (w : Nat) (s : State) (p : State → Bool) : Bool :=
  match step (s.withFetchWord 16 w) with
  | .next t => p t
  | .fault _ => false
  | .refused _ => false

/-- `LOAD` from reset, and a question about the result and the state after. -/
def loaded (bytes : List Byte) (p : LoadResult × State → Bool) : Bool := p (State.reset.load bytes)

/-- The pixels that are 1 of the columns and rows given, as (column, row). -/
def lit (s : State) (xs : List (Fin 64)) (ys : List (Fin 32)) : List (Fin 64 × Fin 32) :=
  ys.flatMap fun y => (xs.filter fun x => s.pixel y x).map fun x => (x, y)

/-! ## Well-formedness: the one operand a type does not bound -/

theorem test_wf_refuses_height_16 : (Instr.drawSprite 1 2 16).wf = false := by decide

theorem test_wf_accepts_height_15 : (Instr.drawSprite 1 2 15).wf = true := by decide

theorem test_ill_formed_height_does_not_round_trip :
    decodeWord (encode (.drawSprite 1 2 16)) ≠ some (.drawSprite 1 2 16) := by decide

/-! ## Decoding: one word per constructor, bit by bit from the patterns of R51 -/

theorem test_decode_clearScreen : decodeWord 0b0000_0000_1110_0000 = some (.clearScreen) := by decide

theorem test_decode_ret : decodeWord 0b0000_0000_1110_1110 = some (.ret) := by decide

theorem test_decode_jump : decodeWord 0b0001_1010_1011_1100 = some (.jump 0xABC) := by decide

theorem test_decode_call : decodeWord 0b0010_0010_0001_0000 = some (.call 0x210) := by decide

theorem test_decode_skipIfEqualImmediate : decodeWord 0b0011_0001_0000_0111 = some (.skipIfEqualImmediate 1 0x07) := by decide

theorem test_decode_skipIfNotEqualImmediate : decodeWord 0b0100_0001_0000_0111 = some (.skipIfNotEqualImmediate 1 0x07) := by decide

theorem test_decode_skipIfRegistersEqual : decodeWord 0b0101_0001_0010_0000 = some (.skipIfRegistersEqual 1 2) := by decide

theorem test_decode_skipIfRegistersNotEqual : decodeWord 0b1001_0001_0010_0000 = some (.skipIfRegistersNotEqual 1 2) := by decide

theorem test_decode_loadImmediate : decodeWord 0b0110_1010_0010_1100 = some (.loadImmediate 0xA 0x2C) := by decide

theorem test_decode_addImmediate : decodeWord 0b0111_1010_0010_0000 = some (.addImmediate 0xA 0x20) := by decide

theorem test_decode_copy : decodeWord 0b1000_0001_0011_0000 = some (.copy 1 3) := by decide

theorem test_decode_or : decodeWord 0b1000_0001_0010_0001 = some (.or 1 2) := by decide

theorem test_decode_and : decodeWord 0b1000_0001_0010_0010 = some (.and 1 2) := by decide

theorem test_decode_xor : decodeWord 0b1000_0001_0010_0011 = some (.xor 1 2) := by decide

theorem test_decode_addRegisters : decodeWord 0b1000_0001_0010_0100 = some (.addRegisters 1 2) := by decide

theorem test_decode_subRegisters : decodeWord 0b1000_0001_0010_0101 = some (.subRegisters 1 2) := by decide

theorem test_decode_shiftRight : decodeWord 0b1000_1010_1011_0110 = some (.shiftRight 0xA 0xB) := by decide

theorem test_decode_subRegistersReverse : decodeWord 0b1000_0001_0010_0111 = some (.subRegistersReverse 1 2) := by decide

theorem test_decode_shiftLeft : decodeWord 0b1000_0010_0000_1110 = some (.shiftLeft 2 0) := by decide

theorem test_decode_setIndex : decodeWord 0b1010_0011_0000_0000 = some (.setIndex 0x300) := by decide

theorem test_decode_jumpWithOffset : decodeWord 0b1011_1010_1011_1100 = some (.jumpWithOffset 0xABC) := by decide

theorem test_decode_randomAnd : decodeWord 0b1100_0011_0000_1111 = some (.randomAnd 3 0x0F) := by decide

theorem test_decode_drawSprite : decodeWord 0b1101_0001_0010_0101 = some (.drawSprite 1 2 5) := by decide

theorem test_decode_skipIfKeyPressed : decodeWord 0b1110_0010_1001_1110 = some (.skipIfKeyPressed 2) := by decide

theorem test_decode_skipIfKeyNotPressed : decodeWord 0b1110_1111_1010_0001 = some (.skipIfKeyNotPressed 0xF) := by decide

theorem test_decode_loadDTIntoVX : decodeWord 0b1111_0010_0000_0111 = some (.loadDTIntoVX 2) := by decide

theorem test_decode_waitForKey : decodeWord 0b1111_1111_0000_1010 = some (.waitForKey 0xF) := by decide

theorem test_decode_setDTFromVX : decodeWord 0b1111_0000_0001_0101 = some (.setDTFromVX 0) := by decide

theorem test_decode_setSTFromVX : decodeWord 0b1111_0000_0001_1000 = some (.setSTFromVX 0) := by decide

theorem test_decode_addIndex : decodeWord 0b1111_0001_0001_1110 = some (.addIndex 1) := by decide

theorem test_decode_setIndexToFontGlyph : decodeWord 0b1111_0001_0010_1001 = some (.setIndexToFontGlyph 1) := by decide

theorem test_decode_storeBCD : decodeWord 0b1111_0001_0011_0011 = some (.storeBCD 1) := by decide

theorem test_decode_storeRegistersRange : decodeWord 0b1111_0010_0101_0101 = some (.storeRegistersRange 2) := by decide

theorem test_decode_loadRegistersRange : decodeWord 0b1111_0010_0110_0101 = some (.loadRegistersRange 2) := by decide

/-- Unknown words of the decode vectors (95_test_vectors.md section 4). -/
theorem test_decode_unknown : (([0x0000, 0x00E1, 0x00ED, 0x00EF, 0x01E0, 0x0EE0, 0x5AB1, 0x5ABF, 0x9AB1, 0x9ABF] ++
    [0x8128, 0x812D, 0x812F, 0xE09F, 0xE0A0, 0xE19D, 0xF075, 0xF130, 0xF100, 0xFFFF] : List Word).all
      fun w => (decodeWord w).isNone) = true := by decide

/-- A shift decodes whatever its y field is (section 4 of the vectors). -/
theorem test_decode_shift_any_y : decodeWord 0x8AF6 = some (.shiftRight 0xA 0xF) ∧
    decodeWord 0x8A06 = some (.shiftRight 0xA 0x0) := by decide

theorem test_decodeTableWord : decodeTableWord 16 0xD000 = some (.drawSprite 0 0 0) := by decide

theorem test_decode_leaves_rest : decode [0x6A, 0x2C, 0x01] = .ok (.loadImmediate 0xA 0x2C, [0x01]) := by rfl

theorem test_decode_one_byte : decode [0x6A] = .error (.tooShort [0x6A]) := by rfl

/-! ## Single steps: results of 95_test_vectors.md section 2 -/

theorem test_loadImmediate : after 0x6A2C State.reset
    (fun t => t.reg 0xA == 0x2C && t.pc == 0x202) = true := by decide

theorem test_addImmediate_wraps : after 0x7A20 (withRegs [(0xA, 0xF0), (VF, 0x55)])
    (fun t => t.reg 0xA == 0x10 && t.reg VF == 0x55) = true := by decide

theorem test_copy_of_VF : after 0x81F0 (withRegs [(VF, 0x09)])
    (fun t => t.reg 1 == 0x09 && t.reg VF == 0x09) = true := by decide

theorem test_or_keeps_VF : after 0x8121 (withRegs [(1, 0xF0), (2, 0x0F), (VF, 0x55)])
    (fun t => t.reg 1 == 0xFF && t.reg VF == 0x55) = true := by decide

theorem test_and : after 0x8122 (withRegs [(1, 0xF3), (2, 0x3C), (VF, 0x55)])
    (fun t => t.reg 1 == 0x30 && t.reg VF == 0x55) = true := by decide

theorem test_xor : after 0x8123 (withRegs [(1, 0xFF), (2, 0x0F), (VF, 0x55)])
    (fun t => t.reg 1 == 0xF0 && t.reg VF == 0x55) = true := by decide

theorem test_addRegisters_255_no_carry : after 0x8124 (withRegs [(1, 0x80), (2, 0x7F), (VF, 1)])
    (fun t => t.reg 1 == 0xFF && t.reg VF == 0) = true := by decide

theorem test_addRegisters_into_VF : after 0x8F14 (withRegs [(1, 0x20), (VF, 0xF0)])
    (fun t => t.reg VF == 0x10) = true := by decide

theorem test_subRegisters_equal : after 0x8125 (withRegs [(1, 0x33), (2, 0x33), (VF, 1)])
    (fun t => t.reg 1 == 0 && t.reg VF == 0) = true := by decide

theorem test_subRegisters_of_VF : after 0x81F5 (withRegs [(1, 0x10), (VF, 3)])
    (fun t => t.reg 1 == 0x0D && t.reg VF == 1) = true := by decide

theorem test_shiftRight_ignores_y : after 0x8236 (withRegs [(2, 0xFF), (3, 0x00)])
    (fun t => t.reg 2 == 0x7F && t.reg 3 == 0 && t.reg VF == 1) = true := by decide

theorem test_shiftRight_of_VF : after 0x8F06 (withRegs [(VF, 7)])
    (fun t => t.reg VF == 3) = true := by decide

theorem test_subRegistersReverse : after 0x8127 (withRegs [(1, 0x0A), (2, 0x05), (VF, 1)])
    (fun t => t.reg 1 == 0xFB && t.reg VF == 0) = true := by decide

theorem test_subRegistersReverse_of_VF : after 0x81F7 (withRegs [(1, 3), (VF, 0x10)])
    (fun t => t.reg 1 == 0x0D && t.reg VF == 1) = true := by decide

theorem test_shiftLeft : after 0x820E (withRegs [(2, 0x7F), (VF, 1)])
    (fun t => t.reg 2 == 0xFE && t.reg VF == 0) = true := by decide

theorem test_shiftLeft_of_VF : after 0x8F0E (withRegs [(VF, 0xC1)])
    (fun t => t.reg VF == 0x82) = true := by decide

theorem test_randomAnd_draws_with_kk_0 : after 0xC500 (withRegs [(5, 0x77)])
    (fun t => t.rngidx == 1) = true := by decide

theorem test_jump_odd : after 0x1FFF State.reset
    (fun t => t.pc == 0xFFF) = true := by decide

theorem test_call_return_address_wraps : after 0x2300 { State.reset with pc := 0xFFE }
    (fun t => t.pc == 0x300 && t.sp == 1 && t.stk[0] == 0) = true := by decide

theorem test_call_full_stack : after 0x2300 { State.reset with sp := 16 }
    (fun t => t.pc == 0x202 && t.sp == 16 && t.diag == [⟨.stackOverflow, 0x2300⟩]) = true := by decide

theorem test_ret_from_full_stack : after 0x00EE { State.reset with sp := 16, stk := State.reset.stk.set 15 0xABC }
    (fun t => t.pc == 0xABC && t.sp == 15 && t.stk[15] == 0xABC) = true := by decide

theorem test_ret_empty_stack : after 0x00EE { State.reset with pc := 0x212 }
    (fun t => t.pc == 0x214 && t.sp == 0 && t.diag == [⟨.stackUnderflow, 0x00EE⟩]) = true := by decide

theorem test_skipIfEqualImmediate_taken : after 0x3107 (withRegs [(1, 7)])
    (fun t => t.pc == 0x204) = true := by decide

theorem test_skipIfEqualImmediate_wraps : after 0x3100 { State.reset with pc := 0xFFF }
    (fun t => t.pc == 0x003) = true := by decide

theorem test_skipIfNotEqualImmediate_taken : after 0x4107 (withRegs [(1, 8)])
    (fun t => t.pc == 0x204) = true := by decide

theorem test_skipIfNotEqualImmediate_not_taken : after 0x4107 (withRegs [(1, 7)])
    (fun t => t.pc == 0x202) = true := by decide

theorem test_skipIfRegistersEqual_taken : after 0x5120 (withRegs [(1, 0x33), (2, 0x33)])
    (fun t => t.pc == 0x204) = true := by decide

theorem test_skipIfRegistersEqual_not_taken : after 0x5120 (withRegs [(1, 0x33), (2, 0x34)])
    (fun t => t.pc == 0x202) = true := by decide

theorem test_skipIfRegistersNotEqual_taken : after 0x9120 (withRegs [(1, 0x33), (2, 0x34)])
    (fun t => t.pc == 0x204) = true := by decide

theorem test_skipIfRegistersNotEqual_same : after 0x9110 (withRegs [(1, 0x5A)])
    (fun t => t.pc == 0x202) = true := by decide

theorem test_jumpWithOffset_not_reduced : after 0xBFFF (withRegs [(0, 0xFF)])
    (fun t => t.pc == 0x10FE) = true := by decide

theorem test_setIndex : after 0xAFFF State.reset
    (fun t => t.i == 0xFFF && t.pc == 0x202) = true := by decide

theorem test_addIndex_exactly_FFF : after 0xF11E { withRegs [(1, 0xFF), (VF, 9)] with i := 0xF00 }
    (fun t => t.i == 0xFFF && t.reg VF == 0) = true := by decide

theorem test_addIndex_of_VF : after 0xFF1E { withRegs [(VF, 3)] with i := 0xFFE }
    (fun t => t.i == 0x001 && t.reg VF == 1) = true := by decide

theorem test_setIndexToFontGlyph_not_a_digit : after 0xF129 (withRegs [(1, 0xFF)])
    (fun t => t.i == 0x4FB) = true := by decide

theorem test_storeBCD : after 0xF133 { withRegs [(1, 0x9D)] with i := 0x300 }
    (fun t => t.readMem 0x300 == 1 && t.readMem 0x301 == 5 && t.readMem 0x302 == 7 && t.i == 0x300) = true := by decide

theorem test_storeBCD_wraps : after 0xF133 { withRegs [(1, 0x7B)] with i := 0xFFE }
    (fun t => t.readMem 0xFFE == 1 && t.readMem 0xFFF == 2 && t.readMem 0 == 3) = true := by decide

theorem test_storeRegistersRange : after 0xF255 { withRegs [(0, 0x11), (1, 0x22), (2, 0x33), (3, 0x44)] with i := 0x400 }
    (fun t => [0x400, 0x401, 0x402, 0x403].map t.readMem == [0x11, 0x22, 0x33, 0]) = true := by decide

theorem test_storeRegistersRange_wraps : after 0xF155 { withRegs [(0, 0xAA), (1, 0xBB)] with i := 0xFFF }
    (fun t => t.readMem 0xFFF == 0xAA && t.readMem 0 == 0xBB && t.i == 0xFFF) = true := by decide

theorem test_loadRegistersRange : after 0xF265 { withBytes 0x300 [1, 5, 7, 9] with i := 0x300, v := State.reset.v.set 3 0x77 }
    (fun t => [0, 1, 2, 3].map t.reg == [1, 5, 7, 0x77]) = true := by decide

theorem test_loadRegistersRange_wraps : after 0xF165 { withBytes 0xFFF [0x12] with i := 0xFFF }
    (fun t => t.reg 0 == 0x12 && t.reg 1 == 0xF0) = true := by decide

theorem test_clearScreen : after 0x00E0 { withRegs [(VF, 1)] with fb := Frame.toggle Frame.blank 31 63 }
    (fun t => lit t [0, 62, 63] [0, 30, 31] == [] && t.reg VF == 1) = true := by decide

/-- Glyph A across both edges (DRAW-1, step 1). -/
theorem test_drawSprite_wraps : after 0xD125 { withRegs [(1, 0x3E), (2, 0x1E), (VF, 7)] with i := 0x032 }
    (fun t => t.reg VF == 0 && lit t [0, 1, 2, 61, 62, 63] [0, 1, 2, 3, 30, 31] ==
      [(0, 0), (1, 0), (62, 0), (63, 0), (1, 1), (62, 1), (1, 2), (62, 2)] ++
      [(0, 30), (1, 30), (62, 30), (63, 30), (1, 31), (62, 31)]) = true := by decide

/-- Partial overlap (DRAW-3, step 3): column 3 collides and is cleared, column 4 is set. -/
theorem test_drawSprite_collides :
    after 0xD011 { withBytes 0x301 [0x18] with i := 0x301, fb := Frame.toggle Frame.blank 0 3 }
      (fun t => t.reg VF == 1 && lit t [2, 3, 4, 5] [0, 1] == [(4, 0)]) = true := by decide

theorem test_skipIfKeyPressed_low_bits : after 0xE29E { withRegs [(2, 0x17)] with k := pressed [7] }
    (fun t => t.pc == 0x204) = true := by decide

theorem test_skipIfKeyPressed_other_keys : after 0xE29E { withRegs [(2, 0x07)] with k := pressed [6, 8] }
    (fun t => t.pc == 0x202) = true := by decide

theorem test_skipIfKeyNotPressed_taken : after 0xE2A1 { withRegs [(2, 0x07)] with k := pressed [] }
    (fun t => t.pc == 0x204) = true := by decide

theorem test_skipIfKeyNotPressed_key_F : after 0xE2A1 { withRegs [(2, 0xFF)] with k := pressed [15] }
    (fun t => t.pc == 0x202) = true := by decide

theorem test_waitForKey_lowest : after 0xF10A { withRegs [(1, 0xEE)] with k := pressed [9, 3] }
    (fun t => t.reg 1 == 3 && t.pc == 0x202) = true := by decide

theorem test_waitForKey_none : after 0xF10A { withRegs [(1, 0xEE)] with dt := 5, pc := 0xFFF }
    (fun t => t.reg 1 == 0xEE && t.pc == 0xFFF && t.dt == 4) = true := by decide

theorem test_loadDTIntoVX : after 0xF207 { State.reset with dt := 3 }
    (fun t => t.reg 2 == 3 && t.dt == 2) = true := by decide

theorem test_setDTFromVX : after 0xFF15 (withRegs [(VF, 0x10)])
    (fun t => t.dt == 0x0F) = true := by decide

theorem test_setSTFromVX : after 0xF018 (withRegs [(0, 1)])
    (fun t => t.st == 0) = true := by decide

theorem test_timers_do_not_pass_zero : after 0x6000 { State.reset with dt := 0, st := 1 }
    (fun t => t.dt == 0 && t.st == 0) = true := by decide

theorem test_unknown_word : after 0x812F { withRegs [(1, 0x33), (2, 0x33)] with dt := 3 }
    (fun t => t.pc == 0x202 && t.dt == 2 && t.reg 1 == 0x33 && t.diag == [⟨.unknownOpcode, 0x812F⟩]) = true := by decide

/-- The word at 0x10FE is the one at 0x0FE, and PC moves to 0x100 (SEQ-2, step 2). -/
theorem test_fetch_above_FFF : after 0x6A55 { State.reset with pc := 0x10FE }
    (fun t => t.reg 0xA == 0x55 && t.pc == 0x100 && t.readMem 0x0FE == 0x6A) = true := by decide

/-- A word at 0xFFF takes its low byte from 0x000 (SEQ-1, step 2). -/
theorem test_fetch_wraps : after 0x6042 { State.reset with pc := 0xFFF }
    (fun t => t.reg 0 == 0x42 && t.pc == 0x001 && t.readMem 0 == 0x42) = true := by decide

/-- Restoring what an unlisted address reads as leaves nothing listed. -/
theorem test_memory_canonical : Memory.write defaultFont (Memory.write defaultFont [] 0 0x42) 0x1000 0xF0 = [] := by decide

/-- With another `FONT` (R4), `RESET` restores that font over what a program stored, at both of its ends. -/
theorem test_reset_restores_font :
    (let s := (State.resetWith (Vector.replicate 80 0x11)).writeMem 0 0x42
     (s.readMem 0, s.resetOp.readMem 0, s.resetOp.readMem 0x4F, s.resetOp.readMem 0x50)) =
    ((0x42, 0x11, 0x11, 0x00) : Byte × Byte × Byte × Byte) := by decide

theorem test_font_glyphs : (State.reset.readMem 0, State.reset.readMem 0x4F, State.reset.readMem 0x50) =
    ((0xF0, 0x80, 0x00) : Byte × Byte × Byte) := by decide

/-- `LOAD` vectors of section 2.8. -/
theorem test_load : loaded [0x12, 0x34, 0x56] (fun p => p.1 == .ok &&
    [0x1FF, 0x200, 0x201, 0x202, 0x203].map p.2.readMem == [0, 0x12, 0x34, 0x56, 0]) = true := by decide

theorem test_load_empty : loaded [] (fun p => p.1 == .ok && p.2 == State.reset) = true := by decide

/-- The codes of R126. -/
theorem test_codes : (DiagKind.unknownOpcode.code, DiagKind.stackOverflow.code, DiagKind.stackUnderflow.code,
    Output.code (.loaded .loadError), Output.code (.event none)) = (1, 2, 3, 4, 0) := by decide

/-- A step gives the host the one event it emitted (R7, R121). -/
theorem test_step_event : (match operate .step State.reset with
    | .next (o, _) => o == .event (some ⟨.unknownOpcode, 0⟩)
    | .fault _ => false
    | .refused _ => false) = true := by decide

/-! ## Witnesses: for each obligation with premises, states and operands that meet them, clause by clause -/

theorem test_witness_DecodeInvertsEncode : (Instr.drawSprite 0xF 0xF 15).wf = true ∧ (Instr.drawSprite 0 0 0).wf = true ∧
    (Instr.jump 0xFFF).wf = true := by decide

theorem test_witness_EncodeInvertsDecode : decodeWord 0x00E0 = some .clearScreen ∧
    decodeWord 0xFF65 = some (.loadRegistersRange 0xF) := by decide

theorem test_witness_DecoderFollowsOpcodeMap : decodeWord 0x812E = some (.shiftLeft 1 2) ∧
    (⟨0x800E, 0xF00F⟩ : OpcodeRow) ∈ opcodeMap ∧ (⟨0x800E, 0xF00F⟩ : OpcodeRow).covers 0x812E = true := by decide

theorem test_witness_FetchIsBigEndianAndWraps :
    ({ State.reset with pc := 0xFFF } : State).pc.toNat % 4096 = 0xFFF ∧
    ({ State.reset with pc := 0xFFFF } : State).pc.toNat % 4096 = 0xFFF := by decide

/-- Both premises: a word that decodes, at the top of memory, and one that does not, at reset. -/
theorem test_witness_StepRunsDecodedInstruction :
    decodeWord (({ State.reset with pc := 0xFFF } : State).withFetchWord 16 0x6042).fetch16 = some (.loadImmediate 0 0x42) ∧
    decodeWord State.reset.fetch16 = none := by decide

theorem test_witness_UnknownWordIsReported : ∀ row ∈ opcodeMap, row.covers State.reset.fetch16 = false := by decide

/-- The four clauses: no instruction, a call at SP = 16, a return at SP = 0, and a call at SP = 15, a return at SP = 1. -/
theorem test_witness_StepReportsExactlyTheConditions :
    decodeWord State.reset.fetch16 = none ∧
    decodeWord (({ State.reset with sp := 16 } : State).withFetchWord 16 0x2300).fetch16 = some (.call 0x300) ∧
    decodeWord (State.reset.withFetchWord 16 0x00EE).fetch16 = some .ret ∧
    ¬ ((∃ nnn, Instr.call 0x300 = .call nnn) ∧ ({ State.reset with sp := 15 } : State).sp.val = 16) ∧
    ¬ (Instr.ret = .ret ∧ ({ State.reset with sp := 1 } : State).sp.val = 0) := by
  refine ⟨by decide, by decide, by decide, fun h => absurd h.2 (by decide), by decide⟩

theorem test_witness_QuietStepMeetsNoCondition :
    quietStep (State.reset.withFetchWord 16 0x6A2C) = true ∧
    quietStep (({ State.reset with sp := 15 } : State).withFetchWord 16 0x2300) = true ∧
    quietStep (({ State.reset with sp := 1 } : State).withFetchWord 16 0x00EE) = true ∧
    quietStep State.reset = false := by decide

/-- Each premise of a change is met by a step. -/
theorem test_witness_OnlyTheseInstructionsWrite :
    after 0xD001 State.reset (fun t => t.pixel 0 0 != State.reset.pixel 0 0) = true ∧
    after 0xF033 { State.reset with i := 0x300, v := State.reset.v.set 0 9 } (fun t => t.readMem 0x302 != 0) = true ∧
    after 0x2300 State.reset (fun t => t.sp != State.reset.sp && t.stk != State.reset.stk) = true ∧
    after 0xC000 State.reset (fun t => t.rngidx != State.reset.rngidx) = true ∧
    after 0xA300 State.reset (fun t => t.i != State.reset.i) = true := by decide

/-- The four clauses; timers at 0 and at 0xFF. -/
theorem test_witness_TimersCountInEveryStep :
    decodeWord (State.reset.withFetchWord 16 0xF015).fetch16 = some (.setDTFromVX 0) ∧
    decodeWord (State.reset.withFetchWord 16 0xFF18).fetch16 = some (.setSTFromVX 0xF) ∧
    (∀ x, decodeWord (({ State.reset with dt := 0xFF } : State).withFetchWord 16 0x6000).fetch16 ≠
      some (.setDTFromVX x)) ∧
    (∀ x, decodeWord (({ State.reset with st := 0 } : State).withFetchWord 16 0x6000).fetch16 ≠
      some (.setSTFromVX x)) := by decide

/-- The invariant at the ends of its ranges, and at reset; both states step. -/
theorem test_witness_StepKeepsInvariant :
    ({ State.reset with pc := 0x10FE, i := 0xFFF, sp := 16, stk := Vector.replicate 16 0xFFF, mem := [(0xFFF, 1)] } :
      State).Inv ∧ State.reset.Inv ∧
    after 0x00EE { State.reset with pc := 0x10FE, i := 0xFFF, sp := 16, stk := Vector.replicate 16 0xFFF }
      (fun t => t.pc == 0xFFF) = true := by decide

/-- The four operations that are not a step answer a next state. -/
theorem test_witness_HostOperationsKeepInvariant :
    (Operation.reset ≠ .step ∧ Operation.load [0x12] ≠ .step ∧ Operation.setKeys (pressed [3]) ≠ .step ∧
      Operation.fbRead ≠ .step) ∧ State.reset.Inv ∧
    operate .reset State.reset = .next (.nothing, State.reset) ∧
    operate (.load []) State.reset = .next (.loaded .ok, State.reset) ∧
    (∃ t, operate (.setKeys (pressed [3])) State.reset = .next (.nothing, t)) ∧
    (∃ p, operate .fbRead State.reset = .next (.pixels p, State.reset)) := by
  exact ⟨by decide, by decide, rfl, rfl, ⟨_, rfl⟩, ⟨_, rfl⟩⟩

theorem test_witness_MemoryReadsLastWrite : 0x1FFF % 4096 = 0xFFF % 4096 ∧ 0x1000 % 4096 = 0 % 4096 := by decide

/-- Two registers at the top of memory, PC above 0xFFF in the second. -/
theorem test_witness_StoredRegistersAreFetched :
    (1 ≤ (1 : Reg).val ∧ ({ State.reset with i := 0xFFF, pc := 0xFFF } : State).i.toNat % 4096 = 0xFFF) ∧
    1 ≤ (15 : Reg).val ∧ ({ State.reset with i := 0x0FE, pc := 0x10FE } : State).i.toNat % 4096 =
      ({ State.reset with i := 0x0FE, pc := 0x10FE } : State).pc.toNat % 4096 := by decide

/-- For AddRegistersSetsCarry, SubtractSetsStrictGreater and ShiftsMoveOneBitOut: x other than 0xF, at both ends. -/
theorem test_witness_flag_clauses : (0 : Reg) ≠ VF ∧ (14 : Reg) ≠ VF := by decide

theorem test_witness_RandomAndDrawsOneByte : (0x7F : Byte).getLsbD 7 = false ∧ (0xFE : Byte).getLsbD 0 = false := by
  decide

theorem test_witness_CallPushesAndReturnPops :
    State.reset.sp.val < 16 ∧ ({ State.reset with sp := 15 } : State).sp.val < 16 ∧
    ({ State.reset with sp := 1 } : State).sp.val = (0 : Fin 16).val + 1 ∧
    ({ State.reset with sp := 16 } : State).sp.val = (15 : Fin 16).val + 1 := by decide

theorem test_witness_StackFaultsAreReportedNoOps :
    ({ State.reset with sp := 16 } : State).sp.val = 16 ∧ State.reset.sp.val = 0 := by decide

theorem test_witness_ReturnComesBackFromCall :
    State.reset.sp.val < 16 ∧ ({ State.reset with sp := 15 } : State).sp.val < 16 := by decide

/-- Both sides of every condition. -/
theorem test_witness_SkipsTestTheirCondition :
    State.reset.reg 1 = 0x00 ∧ State.reset.reg 1 ≠ 0x07 ∧ State.reset.reg 1 = State.reset.reg 2 ∧
    (withRegs [(1, 1)]).reg 1 ≠ (withRegs [(1, 1)]).reg 2 ∧
    (∃ j : Fin 16, j.val = (State.reset.reg 1).toNat % 16 ∧ State.reset.key j = false) ∧
    (∃ j : Fin 16, j.val = ((withRegs [(1, 0xFF)]).reg 1).toNat % 16 ∧
      ({ State.reset with k := pressed [15] } : State).key j = true) := by decide

/-- Each skip is fetched, at the top of memory and above it; both sides of its condition are
test_witness_SkipsTestTheirCondition. -/
theorem test_witness_TakenSkipAdvancesByFour :
    decodeWord (({ State.reset with pc := 0xFFE } : State).withFetchWord 16 0x3100).fetch16 =
      some (.skipIfEqualImmediate 1 0) ∧
    decodeWord (({ State.reset with pc := 0xFFF } : State).withFetchWord 16 0x4100).fetch16 =
      some (.skipIfNotEqualImmediate 1 0) ∧
    decodeWord (({ State.reset with pc := 0xFFC } : State).withFetchWord 16 0x5120).fetch16 =
      some (.skipIfRegistersEqual 1 2) ∧
    decodeWord (({ State.reset with pc := 0x10FE } : State).withFetchWord 16 0x9120).fetch16 =
      some (.skipIfRegistersNotEqual 1 2) ∧
    decodeWord (State.reset.withFetchWord 16 0xE19E).fetch16 = some (.skipIfKeyPressed 1) ∧
    decodeWord (State.reset.withFetchWord 16 0xE1A1).fetch16 = some (.skipIfKeyNotPressed 1) := by decide

/-- For StoreRangeWritesRegisters and LoadRangeReadsRegisters: both ends of the range, also x = 0xF. -/
theorem test_witness_ranges : (0 : Reg).val ≤ (0 : Reg).val ∧ (0 : Reg).val ≤ (15 : Reg).val ∧
    (15 : Reg).val ≤ (15 : Reg).val := by decide

/-- A state whose memory reads as it does after the store, with that I, and another VF. -/
theorem test_witness_LoadRangeRestoresStoredRange :
    ∃ t u : State, exec (.storeRegistersRange 15) (withRegs [(15, 0x77)]) = .next t ∧ u.i = t.i ∧
      (∀ a, u.readMem a = t.readMem a) ∧ u.reg 15 ≠ 0x77 :=
  ⟨_, { State.reset with mem := _ }, rfl, rfl, fun _ => rfl, by decide⟩

/-- n at both ends of its range, and a pixel that is covered and was 1, and one that was 0. -/
theorem test_witness_DrawXorsSpriteAndReportsCollision : (0 < 16 ∧ 15 < 16) ∧
    ({ State.reset with fb := Frame.toggle Frame.blank 0 0 } : State).pixel 0 0 = true ∧
    spriteCovers State.reset 0 0 15 0 0 = true ∧ spriteCovers State.reset 0 0 0 0 0 = false := by decide

/-- The position registers hold after the draw what they held before it: VF drawn from when it is 0, and two others. -/
theorem test_witness_DrawTwiceRestoresFramebuffer :
    (match exec (.drawSprite 1 2 5) (withRegs [(1, 0x3E), (2, 0x1E)]) with
      | .next t => t.reg 1 == 0x3E && t.reg 2 == 0x1E && t.pixel 30 62
      | .fault _ => false
      | .refused _ => false) = true ∧
    (match exec (.drawSprite 0xF 0xF 0) State.reset with
      | .next t => t.reg VF == State.reset.reg VF
      | .fault _ => false
      | .refused _ => false) = true := by decide

/-- Key 0 alone, key F alone, and no key. -/
theorem test_witness_WaitForKeyTakesLowestKey :
    (({ State.reset with k := pressed [0, 15] } : State).key 0 = true ∧
      ∀ l : Fin 16, l < 0 → ({ State.reset with k := pressed [0, 15] } : State).key l = false) ∧
    (({ State.reset with k := pressed [15] } : State).key 15 = true ∧
      ∀ l : Fin 16, l < 15 → ({ State.reset with k := pressed [15] } : State).key l = false) ∧
    ∀ j : Fin 16, State.reset.key j = false := by decide

theorem test_witness_WaitingStepStays :
    decodeWord (({ State.reset with pc := 0x1FFF } : State).withFetchWord 16 0xF10A).fetch16 = some (.waitForKey 1) ∧
    ∀ j : Fin 16, ({ State.reset with pc := 0x1FFF } : State).key j = false := by decide

theorem test_witness_TimerInstructions :
    decodeWord (State.reset.withFetchWord 16 0xF007).fetch16 = some (.loadDTIntoVX 0) ∧
    decodeWord (State.reset.withFetchWord 16 0xFF15).fetch16 = some (.setDTFromVX 15) ∧
    decodeWord (State.reset.withFetchWord 16 0xFF18).fetch16 = some (.setSTFromVX 15) := by decide

/-- Images of no byte, of 0x0E00 bytes and of one byte more; a byte index at the end of the longest image. -/
theorem test_witness_LoadCopiesImageOrFails :
    ([] : List Byte).length ≤ 0x0E00 ∧ (List.replicate 0x0E00 (0xAB : Byte)).length ≤ 0x0E00 ∧
    0x0DFF < (List.replicate 0x0E00 (0xAB : Byte)).length ∧
    (List.replicate 0x0E01 (0xAB : Byte)).length > 0x0E00 := by
  rw [List.length_replicate, List.length_replicate]; decide

theorem test_witness_ResetSetsEverything : (0 < 80 ∧ 79 < 80) ∧ (80 ≤ 80 ∧ 80 < 4096) ∧
    80 ≤ 4095 ∧ 4095 < 4096 := by decide

end Sys2Proof.Tests
end

section
/-! What a word's bits say of the instruction it decodes to. -/

namespace Sys2Proof

/-! ## A word of a known family, from its fields -/

theorem encodeNNN_of_fieldOp {w : Word} (op : BitVec 4) (h : (fieldOp w).toNat = op.toNat) :
    encodeNNN op (fieldNNN w) = w :=
  BitVec.eq_of_toNat_eq h ▸ encodeNNN_fields w

theorem encodeXKK_of_fieldOp {w : Word} (op : BitVec 4) (h : (fieldOp w).toNat = op.toNat) :
    encodeXKK op (fieldX w) (fieldKK w) = w :=
  BitVec.eq_of_toNat_eq h ▸ encodeXKK_fields w

theorem encodeXKK_of_fieldKK {w : Word} (op : BitVec 4) (kk : Byte) (h : (fieldOp w).toNat = op.toNat)
    (hk : (fieldKK w).toNat = kk.toNat) : encodeXKK op (fieldX w) kk = w :=
  BitVec.eq_of_toNat_eq hk ▸ encodeXKK_of_fieldOp op h

theorem encodeXYN_of_fieldN {w : Word} (op n : BitVec 4) (h : (fieldOp w).toNat = op.toNat)
    (hn : fieldN w = n.toNat) : encodeXYN op (fieldX w) (fieldY w) n = w := by
  have := encodeXYN_fields w
  rwa [BitVec.eq_of_toNat_eq h, hn, BitVec.ofNat_toNat, BitVec.setWidth_eq] at this

/-! ## Each family's instructions encode to the word they were decoded from (R49, R52) -/

theorem encode_of_decodeFamily0 {w : Word} {i : Instr} (h : decodeFamily0 w = some i) : encode i = w := by
  unfold decodeFamily0 at h
  split at h
  · next hw => cases h; exact hw.symm
  · split at h
    · next hw => cases h; exact hw.symm
    · contradiction

theorem encode_of_decodeFamily8 {w : Word} {i : Instr} (hop : (fieldOp w).toNat = 8)
    (h : decodeFamily8 w = some i) : encode i = w := by
  unfold decodeFamily8 at h
  split at h <;> cases h <;> next hn => exact encodeXYN_of_fieldN 0x8 _ hop hn

theorem encode_of_decodeFamilyE {w : Word} {i : Instr} (hop : (fieldOp w).toNat = 14)
    (h : decodeFamilyE w = some i) : encode i = w := by
  unfold decodeFamilyE at h
  split at h <;> cases h <;> next hk => exact encodeXKK_of_fieldKK 0xE _ hop hk

theorem encode_of_decodeFamilyF {w : Word} {i : Instr} (hop : (fieldOp w).toNat = 15)
    (h : decodeFamilyF w = some i) : encode i = w := by
  unfold decodeFamilyF at h
  split at h <;> cases h <;> next hk => exact encodeXKK_of_fieldKK 0xF _ hop hk

/-- The word of a decoded instruction is the word it was decoded from: no bit is ignored (R46, R52). -/
theorem encode_of_decodeWord {w : Word} {i : Instr} (h : decodeWord w = some i) : encode i = w := by
  unfold decodeWord at h
  split at h
  case h_1 => exact encode_of_decodeFamily0 h
  case h_9 hop => exact encode_of_decodeFamily8 hop h
  case h_15 hop => exact encode_of_decodeFamilyE hop h
  case h_16 hop => exact encode_of_decodeFamilyF hop h
  case h_6 hop | h_10 hop =>
    split at h
    · next hn => cases h; exact encodeXYN_of_fieldN _ 0x0 hop hn
    · contradiction
  case h_14 hop =>
    cases h
    exact encodeXYN_of_fieldN 0xD _ hop (by rw [fieldN, BitVec.ofNat_toNat, BitVec.setWidth_eq])
  case h_2 hop | h_3 hop | h_11 hop | h_12 hop => cases h; exact encodeNNN_of_fieldOp _ hop
  case h_4 hop | h_5 hop | h_7 hop | h_8 hop | h_13 hop => cases h; exact encodeXKK_of_fieldOp _ hop
  case h_17 => contradiction

end Sys2Proof
end

section
/-! The frame of every instruction's execute stage (10_state.md R24). -/

namespace Sys2Proof.Machine

/-! ## Frames of the updates that write one piece of state -/

theorem SameExcept.withIndex (s : State) (i : Word) : SameExcept { index := true } s { s with i := i } :=
  { SameExcept.refl { index := true } s with index := nofun }

theorem SameExcept.withFrame (s : State) (fb : Frame) : SameExcept { fb := true } s { s with fb := fb } :=
  { SameExcept.refl { fb := true } s with fb := nofun }

theorem SameExcept.withDT (s : State) (b : Byte) : SameExcept { dt := true } s { s with dt := b } :=
  { SameExcept.refl { dt := true } s with dt := nofun }

theorem SameExcept.withST (s : State) (b : Byte) : SameExcept { st := true } s { s with st := b } :=
  { SameExcept.refl { st := true } s with st := nofun }

theorem SameExcept.skipIf (s : State) (c : Bool) : SameExcept { pc := true } s (s.skipIf c) :=
  State.skipIf_eq s c ▸ SameExcept.withPC s _

/-- The flag write and the data write, with VF named first as in R24. -/
theorem SameExcept.flagThenReg (s : State) (flag data : Byte) (x : Reg) :
    SameExcept { regs := [VF, x] } s (s.setFlagThenReg flag x data) :=
  (SameExcept.setFlagThenReg s flag data x).mono_regs fun _ => List.Perm.mem_iff (List.Perm.swap VF x []) |>.mp

/-- A call's frame: the slot pushed, SP and PC. -/
theorem SameExcept.pushed (s : State) (k : Fin 16) (w pc : Word) (sp : Fin 17) :
    SameExcept { slots := [k], sp := true, pc := true } s { s with stk := s.stk.set k w, sp := sp, pc := pc } :=
  { SameExcept.refl { slots := [k], sp := true, pc := true } s with
    sp := nofun
    pc := nofun
    slots := fun j hj => by
      have hne : k.val ≠ j.val := fun e => hj (by simp [Fin.ext e])
      simp [hne] }

/-- A return's frame: SP and PC. -/
theorem SameExcept.popped (s : State) (pc : Word) (sp : Fin 17) :
    SameExcept { sp := true, pc := true } s { s with sp := sp, pc := pc } :=
  { SameExcept.refl { sp := true, pc := true } s with sp := nofun, pc := nofun }

/-- A load of a range of registers writes just the registers of the range. -/
theorem SameExcept.loadRange (f : Reg → Byte) (x : Reg) (s : State) :
    SameExcept { regs := (List.finRange 16).filter (fun r => r ≤ x) } s
      ((regRange x).foldl (fun t k => t.setReg k (f k)) s) := by
  have hregs : ∀ r, r ∉ (List.finRange 16).filter (fun r => r ≤ x) →
      ((regRange x).foldl (fun t k => t.setReg k (f k)) s).reg r = s.reg r := fun r hr => by
    rw [State.reg_foldl_setReg, if_neg]
    simpa [mem_regRange] using hr
  rw [State.foldl_setReg_frame] at hregs ⊢
  exact { SameExcept.refl _ s with regs := hregs }

theorem SameExcept.drawSprite (s : State) (l : List Dot) :
    SameExcept { regs := [VF], fb := true } s (l.foldl Dot.draw (s.setReg VF 0)) :=
  SameExcept.trans { SameExcept.setReg s VF 0 with fb := nofun } (Dot.foldl_frame l _)

/-! ## The instructions whose writes depend on the state -/

theorem footprint_ret_of_empty {s : State} (h : s.sp.val = 0) : footprint .ret s = { diag := true } :=
  if_pos (Fin.ext h)

theorem footprint_ret_of_pos {s : State} (h : 0 < s.sp.val) : footprint .ret s = { sp := true, pc := true } :=
  if_neg fun e => h.ne' (congrArg Fin.val e)

theorem footprint_call_of_lt {s : State} (nnn : Addr) (h : s.sp.val < 16) :
    footprint (.call nnn) s = { slots := [⟨s.sp.val, h⟩], sp := true, pc := true } :=
  dif_pos h

theorem footprint_call_of_full {s : State} (nnn : Addr) (h : s.sp.val = 16) :
    footprint (.call nnn) s = { diag := true } :=
  dif_neg (by omega)

theorem footprint_waitForKey_of_pressed {s : State} (x : Reg) {j : Fin 16} (h : s.k[j] = true) :
    footprint (.waitForKey x) s = { regs := [x] } :=
  if_pos (Vector.any_eq_true.mpr ⟨j.val, j.isLt, h⟩)

theorem footprint_waitForKey_of_none {s : State} (x : Reg) (h : ∀ j : Fin 16, s.k[j] = false) :
    footprint (.waitForKey x) s = { pc := true } :=
  if_neg fun e => by
    obtain ⟨j, hj, hk⟩ := Vector.any_eq_true.mp e
    exact Bool.false_ne_true ((h ⟨j, hj⟩).symm.trans hk)

theorem execRet_of_empty {s : State} (h : s.sp.val = 0) : execRet s = .next (s.raise .stackUnderflow 0x00EE) := by
  rw [execRet, State.pop_empty h]; rfl

theorem execCall_of_full {s : State} (nnn : Addr) (h : s.sp.val = 16) :
    execCall nnn s = .next (s.raise .stackOverflow (encode (.call nnn))) := by
  rw [execCall, State.push_full _ h]

theorem execRet_frame (s : State) : ∃ t, execRet s = .next t ∧ SameExcept (footprint .ret s) s t := by
  rcases Nat.eq_zero_or_pos s.sp.val with h | h
  · rw [footprint_ret_of_empty h]
    exact ⟨_, execRet_of_empty h, SameExcept.raise s _ _⟩
  · rw [footprint_ret_of_pos h, execRet, State.pop_of_pos ⟨s.sp.val - 1, by omega⟩ (by simp; omega)]
    exact ⟨_, rfl, SameExcept.popped s _ _⟩

theorem execCall_frame (nnn : Addr) (s : State) :
    ∃ t, execCall nnn s = .next t ∧ SameExcept (footprint (.call nnn) s) s t := by
  rcases Nat.lt_or_ge s.sp.val 16 with h | h
  · rw [footprint_call_of_lt nnn h, execCall, State.push_of_lt _ h]
    exact ⟨_, rfl, SameExcept.pushed s ⟨s.sp.val, h⟩ _ _ _⟩
  · have hfull : s.sp.val = 16 := by omega
    rw [footprint_call_of_full nnn hfull]
    exact ⟨_, execCall_of_full nnn hfull, SameExcept.raise s _ _⟩

theorem execWaitForKey_frame (x : Reg) (s : State) :
    ∃ t, execWaitForKey x s = .next t ∧ SameExcept (footprint (.waitForKey x) s) s t := by
  unfold execWaitForKey
  cases hk : keyPick s.k with
  | some j =>
    rw [footprint_waitForKey_of_pressed x ((keyPick_eq_some _ _).mp hk).1]
    exact ⟨_, rfl, SameExcept.setReg s _ _⟩
  | none =>
    rw [footprint_waitForKey_of_none x ((keyPick_eq_none _).mp hk)]
    exact ⟨_, rfl, SameExcept.withPC s _⟩

/-! ## Every instruction -/

/-- The execute stage of every instruction completes and writes just what R24 says it may. -/
theorem exec_frame (i : Instr) (s : State) : ∃ t, exec i s = .next t ∧ SameExcept (footprint i s) s t := by
  cases i with
  | clearScreen => exact ⟨_, rfl, SameExcept.withFrame s _⟩
  | ret => exact execRet_frame s
  | call nnn => exact execCall_frame nnn s
  | waitForKey x => exact execWaitForKey_frame x s
  | jump | jumpWithOffset => exact ⟨_, rfl, SameExcept.withPC s _⟩
  | skipIfEqualImmediate | skipIfNotEqualImmediate | skipIfRegistersEqual | skipIfRegistersNotEqual
  | skipIfKeyPressed | skipIfKeyNotPressed => exact ⟨_, rfl, SameExcept.skipIf s _⟩
  | loadImmediate | addImmediate | copy | or | and | xor | loadDTIntoVX => exact ⟨_, rfl, SameExcept.setReg s _ _⟩
  | addRegisters | subRegisters | shiftRight | subRegistersReverse | shiftLeft =>
    exact ⟨_, rfl, SameExcept.flagThenReg s _ _ _⟩
  | setIndex | setIndexToFontGlyph => exact ⟨_, rfl, SameExcept.withIndex s _⟩
  | addIndex x => exact ⟨_, rfl, { SameExcept.setReg s VF _ with index := nofun }⟩
  | randomAnd x kk => exact ⟨_, rfl, { SameExcept.setReg s x _ with rng := nofun }⟩
  | drawSprite x y n => exact ⟨_, execDrawSprite_eq x y n s, SameExcept.drawSprite s _⟩
  | setDTFromVX => exact ⟨_, rfl, SameExcept.withDT s _⟩
  | setSTFromVX => exact ⟨_, rfl, SameExcept.withST s _⟩
  | storeBCD x => exact ⟨_, rfl, SameExcept.writeBytes s _ (bcdDigits (s.reg x))⟩
  | storeRegistersRange x =>
    have h := SameExcept.writeBytes s s.i.toNat ((regRange x).map s.reg)
    rw [show ((regRange x).map s.reg).length = x.val + 1 by simp [regRange]] at h
    exact ⟨_, rfl, h⟩
  | loadRegistersRange x => exact ⟨_, rfl, SameExcept.loadRange _ x s⟩

end Sys2Proof.Machine
end

section
/-! Which instructions may write a piece of state, and what a whole step writes (10_state.md R24). -/

namespace Sys2Proof.Machine

/-! ## The rows of R24 that name a piece of state -/

section
variable {i : Instr} {s : State}

theorem eq_of_footprint_fb (h : (footprint i s).fb = true) :
    i = .clearScreen ∨ ∃ x y n, i = .drawSprite x y n := by
  cases i with
  | clearScreen => exact .inl rfl
  | drawSprite x y n => exact .inr ⟨x, y, n, rfl⟩
  | ret | call | waitForKey => simp only [footprint] at h; split at h <;> contradiction
  | _ => contradiction

theorem eq_of_footprint_mem (h : (footprint i s).mem ≠ []) :
    ∃ x, i = .storeBCD x ∨ i = .storeRegistersRange x := by
  cases i with
  | storeBCD x => exact ⟨x, .inl rfl⟩
  | storeRegistersRange x => exact ⟨x, .inr rfl⟩
  | ret | call | waitForKey => simp only [footprint] at h; split at h <;> contradiction
  | _ => contradiction

theorem eq_of_footprint_sp (h : (footprint i s).sp = true) : i = .ret ∨ ∃ nnn, i = .call nnn := by
  cases i with
  | ret => exact .inl rfl
  | call nnn => exact .inr ⟨nnn, rfl⟩
  | waitForKey => simp only [footprint] at h; split at h <;> contradiction
  | _ => contradiction

theorem eq_of_footprint_slots (h : (footprint i s).slots ≠ []) : ∃ nnn, i = .call nnn := by
  cases i with
  | call nnn => exact ⟨nnn, rfl⟩
  | ret | waitForKey => simp only [footprint] at h; split at h <;> contradiction
  | _ => contradiction

theorem eq_of_footprint_rng (h : (footprint i s).rng = true) : ∃ x kk, i = .randomAnd x kk := by
  cases i with
  | randomAnd x kk => exact ⟨x, kk, rfl⟩
  | ret | call | waitForKey => simp only [footprint] at h; split at h <;> contradiction
  | _ => contradiction

theorem eq_of_footprint_index (h : (footprint i s).index = true) :
    (∃ nnn, i = .setIndex nnn) ∨ ∃ x, i = .addIndex x ∨ i = .setIndexToFontGlyph x := by
  cases i with
  | setIndex nnn => exact .inl ⟨nnn, rfl⟩
  | addIndex x => exact .inr ⟨x, .inl rfl⟩
  | setIndexToFontGlyph x => exact .inr ⟨x, .inr rfl⟩
  | ret | call | waitForKey => simp only [footprint] at h; split at h <;> contradiction
  | _ => contradiction

/-- An instruction reports only a call with a full stack or a return with an empty one (R123, R124). -/
theorem eq_of_footprint_diag (h : (footprint i s).diag = true) :
    (∃ nnn, i = .call nnn) ∧ s.sp.val = 16 ∨ i = .ret ∧ s.sp.val = 0 := by
  cases i with
  | ret =>
    rcases Nat.eq_zero_or_pos s.sp.val with hsp | hsp
    · exact .inr ⟨rfl, hsp⟩
    · rw [footprint_ret_of_pos hsp] at h; contradiction
  | call nnn =>
    rcases Nat.lt_or_ge s.sp.val 16 with hsp | hsp
    · rw [footprint_call_of_lt nnn hsp] at h; contradiction
    · exact .inl ⟨⟨nnn, rfl⟩, by omega⟩
  | waitForKey => simp only [footprint] at h; split at h <;> contradiction
  | _ => contradiction

end

/-! ## What a change outside the footprint means -/

section
variable {f : Footprint} {s t : State}

theorem SameExcept.fb_of_ne (h : SameExcept f s t) (hne : t.fb ≠ s.fb) : f.fb = true :=
  Bool.of_not_eq_false fun e => hne (h.fb e)

theorem SameExcept.sp_of_ne (h : SameExcept f s t) (hne : t.sp ≠ s.sp) : f.sp = true :=
  Bool.of_not_eq_false fun e => hne (h.sp e)

theorem SameExcept.rng_of_ne (h : SameExcept f s t) (hne : t.rngidx ≠ s.rngidx) : f.rng = true :=
  Bool.of_not_eq_false fun e => hne (h.rng e)

theorem SameExcept.index_of_ne (h : SameExcept f s t) (hne : t.i ≠ s.i) : f.index = true :=
  Bool.of_not_eq_false fun e => hne (h.index e)

theorem SameExcept.slots_of_ne (h : SameExcept f s t) (hne : t.stk ≠ s.stk) : f.slots ≠ [] := fun e =>
  hne (Vector.ext fun j hj => h.slots ⟨j, hj⟩ (by simp [e]))

theorem SameExcept.mem_of_ne (h : SameExcept f s t) {a : Nat} (hne : t.readMem a ≠ s.readMem a) : f.mem ≠ [] :=
  fun e => hne (h.mem a (by simp [e]))

end

/-! ## The whole step -/

/-- A step runs the decoded instruction within its footprint, or reports the unknown word (R60, R64, R122). -/
theorem step_cases (s : State) :
    (∃ i u, decodeWord s.fetch16 = some i ∧ exec i s.advance = .next u ∧
      SameExcept (footprint i s.advance) s.advance u ∧ step s = .next u.timerPass) ∨
    (decodeWord s.fetch16 = none ∧ step s = .next (s.advance.raise .unknownOpcode s.fetch16).timerPass) := by
  cases hd : decodeWord s.fetch16 with
  | none => exact .inr ⟨rfl, step_of_unknown hd⟩
  | some i =>
    obtain ⟨u, hu, hframe⟩ := exec_frame i s.advance
    exact .inl ⟨i, u, rfl, hu, hframe, step_of_decode hd hu⟩

end Sys2Proof.Machine

namespace Sys2Proof.Proofs
open Sys2Proof Sys2Proof.Machine

/-- Settles O13: the frame of the decoded instruction, read backwards, names who wrote what changed; a step that
reports an unknown word writes none of these. -/
theorem onlyTheseInstructionsWrite : Obligations.OnlyTheseInstructionsWrite := by
  intro s
  rcases step_cases s with ⟨i, u, hd, -, hframe, hstep⟩ | ⟨-, hstep⟩
  · refine ⟨_, hstep, hframe.keys, hframe.font, fun hne => ?_, fun ⟨a, hne⟩ => ?_, fun hne => ?_, fun hne => ?_,
      fun hne => ?_, fun hne => ?_⟩ <;> simp only [hd, Option.some.injEq]
    · exact eq_of_footprint_fb (hframe.fb_of_ne hne)
    · exact eq_of_footprint_mem (hframe.mem_of_ne hne)
    · exact eq_of_footprint_sp (hframe.sp_of_ne hne)
    · exact eq_of_footprint_slots (hframe.slots_of_ne hne)
    · exact eq_of_footprint_rng (hframe.rng_of_ne hne)
    · exact eq_of_footprint_index (hframe.index_of_ne hne)
  · exact ⟨_, hstep, rfl, rfl, absurd rfl, fun ⟨_, hne⟩ => absurd rfl hne, absurd rfl, absurd rfl, absurd rfl,
      absurd rfl⟩

end Sys2Proof.Proofs
end

section
/-! The event a step reports (60_exceptions.md R120 to R124). -/

namespace Sys2Proof.Machine

/-- The stack condition the execute stage of an instruction meets in a state, as the event it reports (R123, R124). -/
def execEvent (i : Instr) (s : State) : Option Diag :=
  match i with
  | .call nnn => if s.sp.val = 16 then some ⟨.stackOverflow, encode (.call nnn)⟩ else none
  | .ret => if s.sp.val = 0 then some ⟨.stackUnderflow, 0x00EE⟩ else none
  | _ => none

/-- The condition a step meets in a state, as the event it reports (R120). -/
def stepEvent (s : State) : Option Diag :=
  match decodeWord s.fetch16 with
  | none => some ⟨.unknownOpcode, s.fetch16⟩
  | some i => execEvent i s

section
variable {s : State}

theorem execEvent_call_of_full (nnn : Addr) (h : s.sp.val = 16) :
    execEvent (.call nnn) s = some ⟨.stackOverflow, encode (.call nnn)⟩ :=
  if_pos h

theorem execEvent_ret_of_empty (h : s.sp.val = 0) : execEvent .ret s = some ⟨.stackUnderflow, 0x00EE⟩ :=
  if_pos h

theorem execEvent_eq_none {i : Instr} (hcall : ¬ ((∃ nnn, i = .call nnn) ∧ s.sp.val = 16))
    (hret : ¬ (i = .ret ∧ s.sp.val = 0)) : execEvent i s = none := by
  cases i with
  | call nnn => exact if_neg fun h => hcall ⟨⟨nnn, rfl⟩, h⟩
  | ret => exact if_neg fun h => hret ⟨rfl, h⟩
  | _ => rfl

theorem stepEvent_of_unknown (h : decodeWord s.fetch16 = none) : stepEvent s = some ⟨.unknownOpcode, s.fetch16⟩ := by
  rw [stepEvent, h]

theorem stepEvent_of_decode {i : Instr} (h : decodeWord s.fetch16 = some i) : stepEvent s = execEvent i s := by
  rw [stepEvent, h]

@[simp] theorem execEvent_advance (i : Instr) : execEvent i s.advance = execEvent i s := rfl

end

/-- The execute stage adds to the history the event of the condition it meets, and nothing else. -/
theorem exec_diag {i : Instr} {s u : State} (h : exec i s = .next u) :
    u.diag = (execEvent i s).toList ++ s.diag := by
  by_cases hcall : (∃ nnn, i = .call nnn) ∧ s.sp.val = 16
  · obtain ⟨⟨nnn, rfl⟩, hsp⟩ := hcall
    cases (execCall_of_full nnn hsp).symm.trans h
    rw [execEvent_call_of_full nnn hsp]; rfl
  · by_cases hret : i = .ret ∧ s.sp.val = 0
    · obtain ⟨rfl, hsp⟩ := hret
      cases (execRet_of_empty hsp).symm.trans h
      rw [execEvent_ret_of_empty hsp]; rfl
    · obtain ⟨t, ht, hframe⟩ := exec_frame i s
      cases ht.symm.trans h
      rw [execEvent_eq_none hcall hret]
      exact hframe.diag (Bool.eq_false_iff.mpr fun e => (eq_of_footprint_diag e).elim hcall hret)

/-- A step adds to the history the event of the condition it meets, and nothing else (R121, R128). -/
theorem step_diag (s : State) : ∃ t, step s = .next t ∧ t.diag = (stepEvent s).toList ++ s.diag := by
  rcases step_cases s with ⟨i, u, hd, hu, -, hstep⟩ | ⟨hd, hstep⟩
  · exact ⟨_, hstep, by simpa [stepEvent_of_decode hd] using exec_diag hu⟩
  · exact ⟨_, hstep, by simp [stepEvent_of_unknown hd]⟩

/-! ## The host's operations and the invariant -/

/-- Every reset state meets the invariant. -/
theorem State.inv_resetWith (f : Font) : (State.resetWith f).Inv :=
  ⟨Memory.wf_resetWith, Nat.zero_le _, show Config.resetPC.toNat ≤ 0x10FE by decide, fun k => by simp [State.resetWith]⟩

@[simp] theorem State.load_font (s : State) (bytes : List Byte) : (s.load bytes).2.font = s.font := by
  unfold State.load; split <;> rfl

theorem State.inv_load {s : State} (bytes : List Byte) (h : s.Inv) : (s.load bytes).2.Inv := by
  obtain ⟨hmem, hregs⟩ := h
  unfold State.load
  split
  · exact ⟨hmem, hregs⟩
  · exact ⟨Memory.wf_writeBytes _ _ _ hmem, hregs⟩

end Sys2Proof.Machine

namespace Sys2Proof.Proofs
open Sys2Proof Sys2Proof.Machine

/-- Settles O8: the event is the condition the step meets, whose word, for a call, is the word fetched, because decoding
loses no bit. -/
theorem stepReportsExactlyTheConditions : Obligations.StepReportsExactlyTheConditions := by
  intro s
  obtain ⟨t, hstep, hdiag⟩ := step_diag s
  refine ⟨t, stepEvent s, hstep, operate_step _ hstep hdiag, hdiag, stepEvent_of_unknown, fun nnn hd hsp => ?_,
    fun hd hsp => ?_, fun i hd hcall hret => ?_⟩
  · rw [stepEvent_of_decode hd, execEvent_call_of_full nnn hsp, encode_of_decodeWord hd]
  · rw [stepEvent_of_decode hd, execEvent_ret_of_empty hsp]
  · rw [stepEvent_of_decode hd, execEvent_eq_none hcall hret]

/-- Settles O16: no reset state lists a byte of memory, and its registers are zero and 0x200. -/
theorem resetMeetsInvariant : Obligations.ResetMeetsInvariant :=
  ⟨State.inv_resetWith _, State.inv_resetWith⟩

/-- Settles O17, by the operation: `RESET` gives a reset state of the same `FONT`, `LOAD` writes memory alone and keeps
its form, `SET_KEYS` and `FB_READ` leave what the invariant speaks of as it was. -/
theorem hostOperationsKeepInvariant : Obligations.HostOperationsKeepInvariant := by
  intro op s t o hop hinv h
  cases op with
  | step => exact absurd rfl hop
  | reset => cases h; exact ⟨State.inv_resetWith _, rfl⟩
  | load bytes => cases h; exact ⟨State.inv_load bytes hinv, State.load_font s bytes⟩
  | setKeys keys => cases h; exact ⟨hinv, rfl⟩
  | fbRead => cases h; exact ⟨hinv, rfl⟩

/-- Settles O48: the state is `State.resetWith` of the Machine's own `FONT`, read piece by piece. -/
theorem resetSetsEverything : Obligations.ResetSetsEverything := by
  intro s
  refine ⟨State.resetWith s.font, rfl, fun r => ?_, rfl, rfl, rfl, fun j => ?_, rfl, rfl, fun j => ?_,
    fun y x => Frame.pixel_blank y x, rfl, rfl, rfl, fun a ha => ?_, fun a hlo hhi => ?_⟩
  · simp [State.reg, State.resetWith]
  · simp [State.resetWith]
  · simp [State.key, State.resetWith]
  · rw [State.readMem_resetWith (by omega), unlistedByte_of_lt ha]
  · rw [State.readMem_resetWith hhi, unlistedByte_of_le hlo]

end Sys2Proof.Proofs
end

section
/-! The execute stage of call and return, the invariant over a step, and what a step does not read (10_state.md R12 to
R17). -/

namespace Sys2Proof.Machine

/-! ## Call and return that meet no condition (R87, R88) -/

theorem execCall_of_lt {s : State} (nnn : Addr) (h : s.sp.val < 16) :
    execCall nnn s = .next { s with
      stk := s.stk.set s.sp.val s.pc, sp := ⟨s.sp.val + 1, by omega⟩, pc := addrWord nnn } := by
  rw [execCall, State.push_of_lt _ h]

/-- When a slot is in use, the one below SP is the one in use last (R14). -/
theorem State.exists_slot_of_pos {s : State} (h : 0 < s.sp.val) : ∃ k : Fin 16, s.sp.val = k.val + 1 :=
  ⟨⟨s.sp.val - 1, by omega⟩, (Nat.sub_add_cancel h).symm⟩

theorem execRet_of_pos {s : State} (k : Fin 16) (h : s.sp.val = k.val + 1) :
    execRet s = .next { s with sp := k.castSucc, pc := s.stk[k] } := by
  rw [execRet, State.pop_of_pos k h]

/-- A return after a call pops the slot the call pushed, and leaves that slot as the one difference (R14). -/
theorem execRet_of_execCall {s t : State} {nnn : Addr} (h : s.sp.val < 16) (ht : execCall nnn s = .next t) :
    execRet t = .next { s with stk := s.stk.set s.sp.val s.pc } := by
  cases (execCall_of_lt nnn h).symm.trans ht
  have hslot : (s.stk.set s.sp.val s.pc)[s.sp.val] = s.pc := Vector.getElem_set_self _
  rw [execRet_of_pos ⟨s.sp.val, h⟩ rfl]
  simp [hslot]

/-! ## The invariant after each shape of update

It speaks of memory, I, PC and the stack slots only, so an update of anything else keeps it as it stands. -/

section
variable {s : State}

theorem State.Inv.withPC (h : s.Inv) {pc : Word} (hpc : pc.toNat ≤ 0x10FE) : State.Inv { s with pc := pc } := by
  obtain ⟨hmem, hi, -, hstk⟩ := h
  exact ⟨hmem, hi, hpc, hstk⟩

theorem State.Inv.withIndex (h : s.Inv) {i : Word} (hi : i.toNat ≤ 0xFFF) : State.Inv { s with i := i } := by
  obtain ⟨hmem, -, hpc, hstk⟩ := h
  exact ⟨hmem, hi, hpc, hstk⟩

theorem State.Inv.writeBytes (h : s.Inv) (a : Nat) (bs : List Byte) :
    State.Inv { s with mem := Memory.writeBytes s.font s.mem a bs } := by
  obtain ⟨hmem, hregs⟩ := h
  exact ⟨Memory.wf_writeBytes _ _ _ hmem, hregs⟩

theorem State.Inv.setSlot (h : s.Inv) (j : Nat) (hj : j < 16) {w : Word} (hw : w.toNat ≤ 0xFFF) :
    State.Inv { s with stk := s.stk.set j w } := by
  obtain ⟨hmem, hi, hpc, hstk⟩ := h
  refine ⟨hmem, hi, hpc, fun k => ?_⟩
  show ((s.stk.set j w)[k.val]).toNat ≤ 0xFFF
  rw [Vector.getElem_set]
  split
  · exact hw
  · exact hstk k

/-- A skip moves PC to an address below 4096 or not at all. -/
theorem State.Inv.skipIf (h : s.Inv) (c : Bool) : (s.skipIf c).Inv := by
  cases c
  · exact h
  · exact h.withPC (by rw [toNat_pcPlus2]; omega)

theorem State.Inv.rewind (h : s.Inv) : s.rewind.Inv := h.withPC (by rw [toNat_pcMinus2]; omega)

theorem State.Inv.advance (h : s.Inv) : s.advance.Inv := h.withPC (by rw [toNat_pcPlus2]; omega)

theorem State.Inv.raise (h : s.Inv) (d : DiagKind) (w : Word) : (s.raise d w).Inv := h

theorem State.Inv.timerPass (h : s.Inv) : s.timerPass.Inv := h

/-! ## The invariant over an execute stage -/

theorem State.Inv.jump (h : s.Inv) (nnn : Addr) : State.Inv { s with pc := addrWord nnn } :=
  h.withPC (by have := nnn.isLt; rw [toNat_addrWord]; omega)

/-- The slot pushed is PC, which the advance has brought below 4096 (R15). -/
theorem State.Inv.execCall (h : s.Inv) (hpc : s.pc.toNat ≤ 0xFFF) {nnn : Addr} {t : State}
    (ht : execCall nnn s = .next t) : t.Inv := by
  rcases Nat.lt_or_ge s.sp.val 16 with hsp | hsp
  · cases (execCall_of_lt nnn hsp).symm.trans ht
    exact (h.setSlot s.sp.val hsp hpc).jump nnn
  · cases (execCall_of_full nnn (by omega)).symm.trans ht
    exact h.raise _ _

/-- PC becomes the slot popped, which is at most 0xFFF. -/
theorem State.Inv.execRet (h : s.Inv) {t : State} (ht : execRet s = .next t) : t.Inv := by
  have ⟨_, _, _, hstk⟩ := h
  rcases Nat.eq_zero_or_pos s.sp.val with hsp | hsp
  · cases (execRet_of_empty hsp).symm.trans ht
    exact h.raise _ _
  · obtain ⟨k, hk⟩ := State.exists_slot_of_pos hsp
    cases (execRet_of_pos k hk).symm.trans ht
    exact h.withPC ((hstk k).trans (by decide))

theorem State.Inv.execWaitForKey (h : s.Inv) {x : Reg} {t : State} (ht : execWaitForKey x s = .next t) : t.Inv := by
  unfold Machine.execWaitForKey at ht
  split at ht <;> cases ht
  · exact h
  · exact h.rewind

/-- The execute stage of every instruction keeps the invariant, when it starts from an advanced PC. -/
theorem State.Inv.exec (h : s.Inv) (hpc : s.pc.toNat ≤ 0xFFF) {i : Instr} {t : State} (ht : exec i s = .next t) :
    t.Inv := by
  cases i with
  | ret => exact h.execRet ht
  | call => exact h.execCall hpc ht
  | waitForKey => exact h.execWaitForKey ht
  | jump nnn => cases ht; exact h.jump nnn
  | jumpWithOffset nnn =>
    cases ht
    exact h.withPC (by have := nnn.isLt; have := (s.reg 0).isLt; rw [toNat_offsetTarget]; omega)
  | skipIfEqualImmediate | skipIfNotEqualImmediate | skipIfRegistersEqual | skipIfRegistersNotEqual
  | skipIfKeyPressed | skipIfKeyNotPressed => cases ht; exact h.skipIf _
  | setIndex nnn => cases ht; exact h.withIndex (by have := nnn.isLt; rw [toNat_addrWord]; omega)
  | addIndex x =>
    have hi : (BitVec.ofNat 16 (dataAddress s.i (s.reg x).toNat)).toNat ≤ 0xFFF := by
      rw [toNat_ofNat_dataAddress]; omega
    cases ht
    exact h.withIndex hi
  | setIndexToFontGlyph x =>
    cases ht
    exact h.withIndex (by have := (s.reg x).isLt; rw [toNat_glyphAddress]; omega)
  | storeBCD | storeRegistersRange => cases ht; exact h.writeBytes _ _
  | drawSprite x y n =>
    cases (execDrawSprite_eq x y n s).symm.trans ht
    rw [Dot.foldl_only]
    exact h
  | loadRegistersRange x => cases ht; rw [State.foldl_setReg_frame]; exact h
  | clearScreen | loadImmediate | addImmediate | copy | or | and | xor | addRegisters | subRegisters | shiftRight
  | subRegistersReverse | shiftLeft | randomAnd | loadDTIntoVX | setDTFromVX | setSTFromVX => cases ht; exact h

end

/-! ## ST is read by no execute stage (R17) -/

/-- The state with another ST. -/
def State.withST (s : State) (v : Byte) : State := { s with st := v }

section
variable (s : State) (v : Byte)

theorem State.skipIf_withST (c : Bool) : (s.withST v).skipIf c = (s.skipIf c).withST v := by
  cases c <;> rfl

theorem Dot.draw_withST (d : Dot) : Dot.draw (s.withST v) d = (Dot.draw s d).withST v := by
  unfold Dot.draw State.drawPixel
  split <;> rfl

theorem Dot.foldl_withST (l : List Dot) : l.foldl Dot.draw (s.withST v) = (l.foldl Dot.draw s).withST v :=
  List.foldl_hom (State.withST · v) fun t d => Dot.draw_withST t v d

theorem State.foldl_setReg_withST (f : Reg → Byte) (l : List Reg) :
    l.foldl (fun t k => t.setReg k (f k)) (s.withST v) = (l.foldl (fun t k => t.setReg k (f k)) s).withST v :=
  List.foldl_hom (State.withST · v) fun _ _ => rfl

end

section
variable {s t : State}

theorem execRet_withST (v : Byte) (h : execRet s = .next t) : execRet (s.withST v) = .next (t.withST v) := by
  rcases Nat.eq_zero_or_pos s.sp.val with hsp | hsp
  · cases (execRet_of_empty hsp).symm.trans h
    exact execRet_of_empty (s := s.withST v) hsp
  · obtain ⟨k, hk⟩ := State.exists_slot_of_pos hsp
    cases (execRet_of_pos k hk).symm.trans h
    exact execRet_of_pos (s := s.withST v) k hk

theorem execCall_withST {nnn : Addr} (v : Byte) (h : execCall nnn s = .next t) :
    execCall nnn (s.withST v) = .next (t.withST v) := by
  rcases Nat.lt_or_ge s.sp.val 16 with hsp | hsp
  · cases (execCall_of_lt nnn hsp).symm.trans h
    exact execCall_of_lt (s := s.withST v) nnn hsp
  · have hfull : s.sp.val = 16 := by omega
    cases (execCall_of_full nnn hfull).symm.trans h
    exact execCall_of_full (s := s.withST v) nnn hfull

theorem execWaitForKey_withST {x : Reg} (v : Byte) (h : execWaitForKey x s = .next t) :
    execWaitForKey x (s.withST v) = .next (t.withST v) := by
  unfold execWaitForKey at h ⊢
  rw [show (s.withST v).k = s.k from rfl]
  split at h <;> cases h <;> rfl

theorem execDrawSprite_withST {x y : Reg} {n : Nat} (v : Byte) (h : execDrawSprite x y n s = .next t) :
    execDrawSprite x y n (s.withST v) = .next (t.withST v) := by
  cases (execDrawSprite_eq x y n s).symm.trans h
  rw [execDrawSprite_eq, ← Dot.foldl_withST]
  rfl

/-- The execute stages of two states that differ only in ST: the same but for ST, which is `V[x]` after a
set-ST-from-VX and else what it was. -/
theorem exec_withST {i : Instr} (v : Byte) (h : exec i s = .next t) :
    ∃ v', exec i (s.withST v) = .next (t.withST v') := by
  cases i with
  | setSTFromVX x => cases h; exact ⟨s.reg x, rfl⟩
  | ret => exact ⟨v, execRet_withST v h⟩
  | call => exact ⟨v, execCall_withST v h⟩
  | waitForKey => exact ⟨v, execWaitForKey_withST v h⟩
  | drawSprite => exact ⟨v, execDrawSprite_withST v h⟩
  | loadRegistersRange => cases h; exact ⟨v, congrArg _ (State.foldl_setReg_withST s v _ _)⟩
  | skipIfEqualImmediate | skipIfNotEqualImmediate | skipIfRegistersEqual | skipIfRegistersNotEqual
  | skipIfKeyPressed | skipIfKeyNotPressed => cases h; exact ⟨v, congrArg _ (State.skipIf_withST s v _)⟩
  | _ => cases h; exact ⟨v, rfl⟩

end

/-! ## PC is read modulo 4096 only (R13) -/

theorem pcPlus2_mod (pc : Word) : pcPlus2 (BitVec.ofNat 16 (pc.toNat % 4096)) = pcPlus2 pc := by
  apply BitVec.eq_of_toNat_eq
  rw [toNat_pcPlus2, toNat_pcPlus2, BitVec.toNat_ofNat]
  omega

/-! ## The pixels `FB_READ` gives (R108) -/

theorem State.length_fbRead (s : State) : s.fbRead.length = 2048 := by
  rw [State.fbRead, List.length_map, List.length_range]

/-- `y * 64 + x` has quotient `y` and remainder `x` by 64. -/
theorem State.getElem?_fbRead (s : State) (y : Fin 32) (x : Fin 64) :
    s.fbRead[y.val * 64 + x.val]? = some (s.pixel y x) := by
  have hy : Fin.ofNat 32 ((y.val * 64 + x.val) / 64) = y := Fin.ext (by rw [Fin.val_ofNat]; omega)
  have hx : Fin.ofNat 64 (y.val * 64 + x.val) = x := Fin.ext (by rw [Fin.val_ofNat]; omega)
  rw [State.fbRead, List.getElem?_map, List.getElem?_range (by omega), Option.map_some, hy, hx]

end Sys2Proof.Machine

namespace Sys2Proof.Proofs
open Sys2Proof Sys2Proof.Machine

/-- Settles O12: R24, instruction by instruction, is `exec_frame`. -/
theorem execWritesOnlyItsFootprint : Obligations.ExecWritesOnlyItsFootprint := exec_frame

/-- Settles O15: the advance brings PC below 4096, so that a call pushes such an address, and the timer pass writes
nothing the invariant speaks of. -/
theorem stepKeepsInvariant : Obligations.StepKeepsInvariant := by
  intro s t hinv ht
  rcases step_cases s with ⟨i, u, -, hu, -, hstep⟩ | ⟨-, hstep⟩ <;> cases hstep.symm.trans ht
  · have hpc : s.advance.pc.toNat ≤ 0xFFF := by rw [State.advance_pc, toNat_pcPlus2]; omega
    exact (hinv.advance.exec hpc hu).timerPass
  · exact (hinv.advance.raise _ _).timerPass

/-- Settles O19: the fetch reads memory and PC only, no execute stage reads ST, and the timer pass counts each timer from
its own value. -/
theorem soundTimerIsInvisible : Obligations.SoundTimerIsInvisible := by
  intro s v
  rcases step_cases s with ⟨i, u, hd, hu, -, hstep⟩ | ⟨hd, hstep⟩
  · obtain ⟨v', hv'⟩ := exec_withST v hu
    exact ⟨_, countDown v', hstep, step_of_decode (s := s.withST v) hd hv'⟩
  · exact ⟨_, countDown v, hstep, step_of_unknown (s := s.withST v) hd⟩

/-- Settles O20: the fetch and the advance, the two places that read the PC a step starts from, reduce it. -/
theorem unreducedPCIsInvisible : Obligations.UnreducedPCIsInvisible := by
  intro s
  have hfetch : State.fetch16 { s with pc := BitVec.ofNat 16 (s.pc.toNat % 4096) } = s.fetch16 :=
    State.fetch16_congr (fun _ => rfl) (by rw [BitVec.toNat_ofNat]; omega)
  have hadvance : State.advance { s with pc := BitVec.ofNat 16 (s.pc.toNat % 4096) } = s.advance := by
    simp only [State.advance, pcPlus2_mod]
  rw [step, step, hfetch, hadvance]

/-- Settles O30: with a free slot the push succeeds, with a used one the pop does. -/
theorem callPushesAndReturnPops : Obligations.CallPushesAndReturnPops := by
  intro s nnn
  refine ⟨fun h => ⟨_, execCall_of_lt nnn h, Vector.getElem_set_self _, rfl, toNat_addrWord nnn, ?_⟩,
    fun k hk => ⟨_, execRet_of_pos k hk, rfl, rfl, SameExcept.popped s _ _⟩⟩
  exact SameExcept.pushed s ⟨s.sp.val, h⟩ _ _ _

/-- Settles O32: the return pops the slot the call pushed. -/
theorem returnComesBackFromCall : Obligations.ReturnComesBackFromCall := by
  intro s nnn h
  have hcall := execCall_of_lt nnn h
  exact ⟨_, _, hcall, execRet_of_execCall h hcall, rfl, rfl,
    { SameExcept.pushed s ⟨s.sp.val, h⟩ s.pc s.pc s.sp with sp := fun _ => rfl, pc := fun _ => rfl }⟩

/-- Settles O28: `kk` only masks the byte drawn. -/
theorem randomAndDrawsOneByte : Obligations.RandomAndDrawsOneByte := by
  intro s x kk
  have hreg : (s.rand.2.setReg x (s.rand.1 &&& kk)).reg x = Config.randomSource s.rngidx &&& kk :=
    State.reg_setReg_same _ x _
  refine ⟨_, rfl, hreg, rfl, fun j hj => ?_, { SameExcept.setReg s x _ with rng := nofun }⟩
  rw [hreg, BitVec.getLsbD_and, hj, Bool.and_false]

/-- Settles O49: `FB_READ` lists index by index the pixel whose row and column are quotient and remainder by 64. -/
theorem setKeysAndFramebufferRead : Obligations.SetKeysAndFramebufferRead := by
  intro s keys
  exact ⟨⟨_, rfl, fun _ => rfl, rfl⟩, _, rfl, s.length_fbRead, s.getElem?_fbRead⟩

end Sys2Proof.Proofs
end

section
/-! Memory: one write, a range of registers stored, and an image loaded (20_memory.md R31, R34, R41, R43). -/

namespace Sys2Proof.Machine

/-! ## One write (R31) -/

/-- One write is a run of one byte. -/
theorem SameExcept.writeMem (s : State) (a : Nat) (v : Byte) :
    SameExcept { mem := [a % 4096] } s (s.writeMem a v) :=
  SameExcept.writeBytes s a [v]

/-! ## The two bytes of a fetched word (R34) -/

@[simp] theorem State.highByte_fetch16 (s : State) : Word.highByte s.fetch16 = s.readMem s.pc.toNat :=
  highByte_ofBytes _ _

@[simp] theorem State.lowByte_fetch16 (s : State) : Word.lowByte s.fetch16 = s.readMem (s.pc.toNat + 1) :=
  lowByte_ofBytes _ _

/-! ## A range of registers stored (R99) -/

theorem length_regRange (x : Reg) : (regRange x).length = x.val + 1 := by simp [regRange]

theorem getElem_regRange (x : Reg) {k : Reg} (hk : k.val < (regRange x).length) : (regRange x)[k.val] = k :=
  Fin.ext (by simp [regRange])

/-- After store-registers-range the k-th address from I on reads the k-th register, for every register of the range. -/
theorem readMem_of_exec_storeRegistersRange {s t : State} {x k : Reg} (hk : k.val ≤ x.val)
    (ht : exec (.storeRegistersRange x) s = .next t) : t.readMem (s.i.toNat + k.val) = s.reg k := by
  have hlt : k.val < (regRange x).length := by rw [length_regRange]; omega
  have hlen : ((regRange x).map s.reg).length ≤ 4096 := by rw [List.length_map, length_regRange]; omega
  cases ht
  calc Memory.read s.font (Memory.writeBytes s.font s.mem s.i.toNat ((regRange x).map s.reg)) (s.i.toNat + k.val)
      = ((regRange x).map s.reg)[k.val]'(by rwa [List.length_map]) := Memory.read_writeBytes _ _ _ _ _ hlen
    _ = s.reg k := by rw [List.getElem_map, getElem_regRange]

/-! ## An image loaded (R43, R125) -/

section
variable {bytes : List Byte}

theorem operate_load_of_le (s : State) (h : bytes.length ≤ 0x0E00) :
    operate (.load bytes) s =
      .next (.loaded .ok, { s with mem := Memory.writeBytes s.font s.mem 0x200 bytes }) := by
  have hload : s.load bytes = (.ok, { s with mem := Memory.writeBytes s.font s.mem 0x200 bytes }) :=
    if_neg (Nat.not_lt.mpr h)
  rw [operate, hload]

theorem operate_load_of_gt (s : State) (h : bytes.length > 0x0E00) :
    operate (.load bytes) s = .next (.loaded .loadError, s) := by
  have hload : s.load bytes = (.loadError, s) := if_pos h
  rw [operate, hload]

/-- No address of an image that fits wraps. -/
theorem imageAddresses_of_le (h : bytes.length ≤ 0x0E00) :
    (List.range bytes.length).map (fun k => (0x200 + k) % 4096) =
      (List.range bytes.length).map (fun k => 0x200 + k) :=
  List.map_congr_left fun k hk => Nat.mod_eq_of_lt (by rw [List.mem_range] at hk; omega)

end

end Sys2Proof.Machine

namespace Sys2Proof.Proofs
open Sys2Proof Sys2Proof.Machine

/-- Settles O21: a read and a write reduce the address alike, and a write is read back at that address only. -/
theorem memoryReadsLastWrite : Obligations.MemoryReadsLastWrite := by
  intro s a b v
  refine ⟨(State.readMem_mod s a).symm, State.readMem_congr s rfl, fun hab => ?_, SameExcept.writeMem s a v⟩
  rw [State.readMem_writeMem, if_pos hab.symm]

/-- Settles O22: the store leaves PC alone, and the two bytes fetched there are those at I and I + 1. -/
theorem storedRegistersAreFetched : Obligations.StoredRegistersAreFetched := by
  intro s x hx hi
  obtain ⟨t, ht, hframe⟩ := exec_frame (.storeRegistersRange x) s
  have hpc : t.pc = s.pc := hframe.pc rfl
  have hread0 : t.readMem s.i.toNat = s.reg 0 := readMem_of_exec_storeRegistersRange (k := 0) (Nat.zero_le _) ht
  have hread1 : t.readMem (s.i.toNat + 1) = s.reg 1 := readMem_of_exec_storeRegistersRange (k := 1) hx ht
  refine ⟨t, ht, ?_, ?_⟩
  · rw [State.highByte_fetch16, hpc, ← hread0]
    exact State.readMem_congr t hi.symm
  · rw [State.lowByte_fetch16, hpc, ← hread1]
    exact State.readMem_congr t (by omega)

/-- Settles O47: an image that fits is one run of writes from 0x200 on, none of which wraps. -/
theorem loadCopiesImageOrFails : Obligations.LoadCopiesImageOrFails := by
  intro s bytes
  refine ⟨fun h => ⟨_, operate_load_of_le s h, fun k hk => ?_, ?_⟩, operate_load_of_gt s⟩
  · exact Memory.read_writeBytes bytes s.mem 0x200 k hk (by omega)
  · rw [← imageAddresses_of_le h]
    exact SameExcept.writeBytes s 0x200 bytes

end Sys2Proof.Proofs
end

section
/-! Decoder, encoder and opcode map: the two round trips, and the rows a word's mask comparison singles out
(30_encoding.md R46, R49, R51, R52). -/

namespace Sys2Proof

/-! ## Dispatch on the top nibble (R49) -/

section
variable {w : Word}

theorem decodeWord_of_family8 (h : fieldOp w = 0x8) : decodeWord w = decodeFamily8 w := by rw [decodeWord, h]; rfl

theorem decodeWord_of_familyD (h : fieldOp w = 0xD) :
    decodeWord w = some (.drawSprite (fieldX w) (fieldY w) (fieldN w)) := by rw [decodeWord, h]; rfl

theorem decodeWord_of_familyE (h : fieldOp w = 0xE) : decodeWord w = decodeFamilyE w := by rw [decodeWord, h]; rfl

theorem decodeWord_of_familyF (h : fieldOp w = 0xF) : decodeWord w = decodeFamilyF w := by rw [decodeWord, h]; rfl

end

/-! ## Decoding an encoded instruction -/

/-- The decoder reads each format's fields back as the operands they were written from. -/
theorem decodeWord_encode {i : Instr} (h : i.wf = true) : decodeWord (encode i) = some i := by
  cases i with
  | clearScreen | ret => rfl
  | jump | call | setIndex | jumpWithOffset | skipIfEqualImmediate | skipIfNotEqualImmediate | loadImmediate
  | addImmediate | randomAnd | skipIfRegistersEqual | skipIfRegistersNotEqual => simp [encode, decodeWord]
  | copy | or | and | xor | addRegisters | subRegisters | shiftRight | subRegistersReverse | shiftLeft =>
    rw [encode, decodeWord_of_family8 (fieldOp_encodeXYN _ _ _ _)]
    simp [decodeFamily8]
  | drawSprite x y n =>
    have hn : n % 16 = n := Nat.mod_eq_of_lt (of_decide_eq_true h)
    rw [encode, decodeWord_of_familyD (fieldOp_encodeXYN _ _ _ _)]
    simp [hn]
  | skipIfKeyPressed | skipIfKeyNotPressed =>
    rw [encode, decodeWord_of_familyE (fieldOp_encodeXKK _ _ _)]
    simp [decodeFamilyE]
  | loadDTIntoVX | waitForKey | setDTFromVX | setSTFromVX | addIndex | setIndexToFontGlyph | storeBCD
  | storeRegistersRange | loadRegistersRange =>
    rw [encode, decodeWord_of_familyF (fieldOp_encodeXKK _ _ _)]
    simp [decodeFamilyF]

/-! ## What the decoder answers is well formed -/

theorem fieldN_lt (w : Word) : fieldN w < 16 := (w.extractLsb' 0 4).isLt

/-- Only a sprite height can be ill formed (R48), and the decoder reads it from a 4-bit field. -/
theorem wf_of_decodeWord {w : Word} {i : Instr} (h : decodeWord w = some i) : i.wf = true := by
  cases i with
  | drawSprite x y n =>
    have hop : fieldOp w = 0xD := encode_of_decodeWord h ▸ fieldOp_encodeXYN 0xD x y _
    rw [decodeWord_of_familyD hop] at h
    cases h
    exact decide_eq_true (fieldN_lt w)
  | _ => rfl

/-! ## The rows of the opcode map (R51) -/

theorem opcodeRow_mem_opcodeMap (i : Instr) : opcodeRow i ∈ opcodeMap := by
  cases i <;> simp [opcodeRow, opcodeMap, opcodeRowsA, opcodeRowsB, opcodeRowsC]

theorem opcodeRow_covers_encode (i : Instr) : (opcodeRow i).covers (encode i) = true := by
  cases i with
  | clearScreen | ret => rfl
  | jump | call | setIndex | jumpWithOffset => exact Laws.Pattern.of_mask _ (encodeNNN_and_F000 _ _)
  | skipIfEqualImmediate | skipIfNotEqualImmediate | loadImmediate | addImmediate | randomAnd =>
    exact Laws.Pattern.of_mask _ (encodeXKK_and_F000 _ _ _)
  | skipIfRegistersEqual | skipIfRegistersNotEqual | copy | or | and | xor | addRegisters | subRegisters
  | shiftRight | subRegistersReverse | shiftLeft => exact Laws.Pattern.of_mask _ (encodeXYN_and_F00F _ _ _ _)
  | drawSprite => exact Laws.Pattern.of_mask _ (encodeXYN_and_F000 _ _ _ _)
  | skipIfKeyPressed | skipIfKeyNotPressed | loadDTIntoVX | waitForKey | setDTFromVX | setSTFromVX | addIndex
  | setIndexToFontGlyph | storeBCD | storeRegistersRange | loadRegistersRange =>
    exact Laws.Pattern.of_mask _ (encodeXKK_and_F0FF _ _ _)

/-! ## The fields a covered word shares with the row's pattern -/

section
variable {pattern mask w : Word}

theorem and_eq_of_covers (h : OpcodeRow.covers ⟨pattern, mask⟩ w = true) : w &&& mask = pattern := eq_of_beq h

theorem fieldOp_of_covers (h : OpcodeRow.covers ⟨pattern, mask⟩ w = true) (hm : fieldOp mask = 0xF) :
    fieldOp w = fieldOp pattern := by
  rw [← and_eq_of_covers h, fieldOp, fieldOp, BitVec.extractLsb'_and, ← fieldOp, ← fieldOp, hm]
  exact BitVec.and_allOnes.symm

theorem fieldN_of_covers (h : OpcodeRow.covers ⟨pattern, mask⟩ w = true) (hm : mask.extractLsb' 0 4 = 0xF) :
    fieldN w = fieldN pattern := by
  rw [← and_eq_of_covers h, fieldN, fieldN, BitVec.extractLsb'_and, hm]
  exact congrArg BitVec.toNat BitVec.and_allOnes.symm

theorem fieldKK_of_covers (h : OpcodeRow.covers ⟨pattern, mask⟩ w = true) (hm : fieldKK mask = 0xFF) :
    fieldKK w = fieldKK pattern := by
  rw [← and_eq_of_covers h, fieldKK, fieldKK, BitVec.extractLsb'_and, ← fieldKK, ← fieldKK, hm]
  exact BitVec.and_allOnes.symm

theorem eq_pattern_of_covers (h : OpcodeRow.covers ⟨pattern, 0xFFFF⟩ w = true) : w = pattern := by
  rw [← and_eq_of_covers h]
  exact BitVec.and_allOnes.symm

end

/-- A word a row covers decodes to an instruction of that row: what the row's mask compares is what the decoder
dispatches on. -/
theorem map_opcodeRow_decodeWord_of_covers {i : Instr} {w : Word} (h : (opcodeRow i).covers w = true) :
    (decodeWord w).map opcodeRow = some (opcodeRow i) := by
  cases i with
  | clearScreen | ret => rw [eq_pattern_of_covers h]; rfl
  | jump | call | setIndex | jumpWithOffset | skipIfEqualImmediate | skipIfNotEqualImmediate | loadImmediate
  | addImmediate | randomAnd | drawSprite =>
    rw [decodeWord, fieldOp_of_covers h rfl]; rfl
  | skipIfRegistersEqual | skipIfRegistersNotEqual =>
    rw [decodeWord, fieldOp_of_covers h rfl, fieldN_of_covers h rfl]; rfl
  | copy | or | and | xor | addRegisters | subRegisters | shiftRight | subRegistersReverse | shiftLeft =>
    rw [decodeWord_of_family8 (fieldOp_of_covers h rfl), decodeFamily8, fieldN_of_covers h rfl]; rfl
  | skipIfKeyPressed | skipIfKeyNotPressed =>
    rw [decodeWord_of_familyE (fieldOp_of_covers h rfl), decodeFamilyE, fieldKK_of_covers h rfl]; rfl
  | loadDTIntoVX | waitForKey | setDTFromVX | setSTFromVX | addIndex | setIndexToFontGlyph | storeBCD
  | storeRegistersRange | loadRegistersRange =>
    rw [decodeWord_of_familyF (fieldOp_of_covers h rfl), decodeFamilyF, fieldKK_of_covers h rfl]; rfl

/-- Every row's pattern, all its operand fields 0, is a word of that row. -/
theorem map_opcodeRow_decodeWord_pattern :
    ∀ r ∈ opcodeMap, (decodeWord r.pattern).map opcodeRow = some r := by decide

theorem exists_decodeWord_of_covers {r : OpcodeRow} {w : Word} (hr : r ∈ opcodeMap) (h : r.covers w = true) :
    ∃ i, decodeWord w = some i ∧ opcodeRow i = r := by
  obtain ⟨j, -, rfl⟩ := Option.map_eq_some_iff.mp (map_opcodeRow_decodeWord_pattern r hr)
  exact Option.map_eq_some_iff.mp (map_opcodeRow_decodeWord_of_covers h)

theorem opcodeRow_covers_of_decodeWord {w : Word} {i : Instr} (h : decodeWord w = some i) :
    (opcodeRow i).covers w = true :=
  encode_of_decodeWord h ▸ opcodeRow_covers_encode i

theorem isSome_decodeWord_iff (w : Word) : (decodeWord w).isSome = true ↔ ∃ r ∈ opcodeMap, r.covers w = true := by
  rw [Option.isSome_iff_exists]
  constructor
  · rintro ⟨i, hi⟩
    exact ⟨opcodeRow i, opcodeRow_mem_opcodeMap i, opcodeRow_covers_of_decodeWord hi⟩
  · rintro ⟨r, hr, hc⟩
    obtain ⟨i, hi, -⟩ := exists_decodeWord_of_covers hr hc
    exact ⟨i, hi⟩

end Sys2Proof

namespace Sys2Proof.Proofs
open Sys2Proof

/-- Settles O2: the two bytes joined are the instruction's word, whose fields are read back. -/
theorem decodeInvertsEncode : Obligations.DecodeInvertsEncode := by
  intro i rest h
  simp [encodeBytes, decode, decodeWord_encode h]

/-- Settles O3: encoding writes the fields back where they were read, and the sprite height read is below 16. -/
theorem encodeInvertsDecode : Obligations.EncodeInvertsDecode := fun _ _ h =>
  ⟨wf_of_decodeWord h, encode_of_decodeWord h⟩

/-- Settles O4: a covered word decodes to an instruction of the covering row, so two rows that cover one word are the
row of the one instruction it decodes to. -/
theorem decoderFollowsOpcodeMap : Obligations.DecoderFollowsOpcodeMap := by
  refine ⟨fun w => ?_, fun w i h => ⟨opcodeRow_mem_opcodeMap i, opcodeRow_covers_of_decodeWord h⟩, ?_⟩
  · rw [Bool.eq_iff_iff, isSome_decodeWord_iff, List.any_eq_true]
  · intro w r r' hr hr' hc hc'
    obtain ⟨i, hi, rfl⟩ := exists_decodeWord_of_covers hr hc
    obtain ⟨j, hj, rfl⟩ := exists_decodeWord_of_covers hr' hc'
    rw [Option.some.inj (hi.symm.trans hj)]

/-- Settles O1, by evaluating the decoder at each word. -/
theorem specWordsDecode : Obligations.SpecWordsDecode := by
  unfold Obligations.SpecWordsDecode
  decide

end Sys2Proof.Proofs
end

section
/-! The step's four stages: fetch, advance, execute stage, timer pass (40_step_sequencer.md R60 to R68). -/

namespace Sys2Proof.Machine

/-! ## The fetch (R61) -/

/-- The fetch reads its two addresses modulo 4096. -/
theorem State.fetch16_eq_ofBytes_mod (s : State) :
    s.fetch16 = Word.ofBytes (s.readMem (s.pc.toNat % 4096)) (s.readMem ((s.pc.toNat + 1) % 4096)) := by
  rw [State.fetch16, State.readMem_mod, State.readMem_mod]

/-! ## The timers (R65, R115) -/

theorem countDown_eq_ite (t : Byte) : countDown t = if t ≠ 0 then t - 1 else t := by
  rcases eq_or_ne t 0 with rfl | h
  · rfl
  · rw [if_pos h]; exact if_neg h

section
variable {i : Instr} {s u : State}

theorem eq_of_footprint_dt (h : (footprint i s).dt = true) : ∃ x, i = .setDTFromVX x := by
  cases i with
  | setDTFromVX x => exact ⟨x, rfl⟩
  | ret | call | waitForKey => simp only [footprint] at h; split at h <;> contradiction
  | _ => contradiction

theorem eq_of_footprint_st (h : (footprint i s).st = true) : ∃ x, i = .setSTFromVX x := by
  cases i with
  | setSTFromVX x => exact ⟨x, rfl⟩
  | ret | call | waitForKey => simp only [footprint] at h; split at h <;> contradiction
  | _ => contradiction

theorem exec_setDTFromVX (x : Reg) (s : State) : exec (.setDTFromVX x) s = .next { s with dt := s.reg x } := rfl

theorem exec_setSTFromVX (x : Reg) (s : State) : exec (.setSTFromVX x) s = .next { s with st := s.reg x } := rfl

theorem dt_of_exec_setDTFromVX {x : Reg} (h : exec (.setDTFromVX x) s = .next u) : u.dt = s.reg x := by
  cases (exec_setDTFromVX x s).symm.trans h; rfl

theorem st_of_exec_setSTFromVX {x : Reg} (h : exec (.setSTFromVX x) s = .next u) : u.st = s.reg x := by
  cases (exec_setSTFromVX x s).symm.trans h; rfl

theorem SameExcept.dt_of_ne_setDTFromVX (h : SameExcept (footprint i s) s u) (hi : ∀ x, i ≠ .setDTFromVX x) :
    u.dt = s.dt :=
  h.dt (Bool.eq_false_iff.mpr fun e => let ⟨x, hx⟩ := eq_of_footprint_dt e; hi x hx)

theorem SameExcept.st_of_ne_setSTFromVX (h : SameExcept (footprint i s) s u) (hi : ∀ x, i ≠ .setSTFromVX x) :
    u.st = s.st :=
  h.st (Bool.eq_false_iff.mpr fun e => let ⟨x, hx⟩ := eq_of_footprint_st e; hi x hx)

end

/-! ## A step always answers, so a run does (R60, R68) -/

theorem step_total (s : State) : ∃ t, step s = .next t := by
  rcases step_cases s with ⟨_, _, _, _, _, hstep⟩ | ⟨_, hstep⟩ <;> exact ⟨_, hstep⟩

theorem run_total (n : Nat) (s : State) : ∃ t, Sys2Proof.core.run n s = .next t := by
  induction n generalizing s with
  | zero => exact ⟨s, run_zero s⟩
  | succ n ih =>
    obtain ⟨t, ht⟩ := step_total s
    rw [run_succ n ht]
    exact ih t

/-! ## The waiting step (R112) -/

theorem exec_waitForKey_of_none {s : State} (x : Reg) (h : ∀ j : Fin 16, s.key j = false) :
    exec (.waitForKey x) s = .next s.rewind := by
  rw [exec, execWaitForKey, (keyPick_eq_none s.k).mpr h]

end Sys2Proof.Machine

namespace Sys2Proof.Proofs
open Sys2Proof Sys2Proof.Machine

/-- Settles O10: every step answers, so every run does, by induction on the number of steps. -/
theorem runsNeverStop : Obligations.RunsNeverStop := run_total

/-- Settles O14: the execute stage leaves a timer `V[x]` in its own set-timer instruction and else as it was, and the
timer pass counts down from there. -/
theorem timersCountInEveryStep : Obligations.TimersCountInEveryStep := by
  intro s
  rcases step_cases s with ⟨i, u, hd, hu, hframe, hstep⟩ | ⟨hd, hstep⟩
  · refine ⟨_, hstep, ?_⟩
    simp only [hd, Option.some.injEq, ne_eq, State.timerPass_dt, State.timerPass_st, toNat_countDown]
    refine ⟨?_, fun hi => ?_, ?_, fun hi => ?_⟩
    · rintro x rfl; rw [dt_of_exec_setDTFromVX hu, State.reg_advance]
    · rw [hframe.dt_of_ne_setDTFromVX hi, State.advance_dt]
    · rintro x rfl; rw [st_of_exec_setSTFromVX hu, State.reg_advance]
    · rw [hframe.st_of_ne_setSTFromVX hi, State.advance_st]
  · refine ⟨_, hstep, ?_⟩
    simp [hd, toNat_countDown]

/-- Settles O45: the rewind undoes the advance modulo 4096, and the next fetch reads PC modulo 4096 only. -/
theorem waitingStepStays : Obligations.WaitingStepStays := by
  intro s x hd hkeys
  have hpc : s.advance.rewind.timerPass.pc.toNat = s.pc.toNat % 4096 := toNat_pcMinus2_pcPlus2 s.pc
  refine ⟨_, step_of_decode hd (exec_waitForKey_of_none x hkeys), hpc, ?_, toNat_countDown s.dt, toNat_countDown s.st,
    { SameExcept.withPC s _ with dt := nofun, st := nofun }⟩
  exact State.fetch16_congr (fun _ => rfl) (by rw [hpc, Nat.mod_mod])

/-- Settles O5: the fetch reduces both addresses, and the address after 0xFFF is 0. -/
theorem fetchIsBigEndianAndWraps : Obligations.FetchIsBigEndianAndWraps := by
  intro s
  constructor
  · rw [State.fetch16_eq_ofBytes_mod, toNat_ofBytes, Nat.mul_comm]
  · intro hpc
    rw [State.lowByte_fetch16]
    exact State.readMem_congr s (by omega)

/-- Settles O6: `u` is what the execute stage of the decoded instruction answers, or the state with the unknown word
reported, and the timer pass takes it to the step's answer. -/
theorem stepRunsDecodedInstruction : Obligations.StepRunsDecodedInstruction := by
  intro s
  simp only [← State.fetch16_eq_ofBytes_mod, ← countDown_eq_ite]
  rcases step_cases s with ⟨i, u, hd, hu, -, hstep⟩ | ⟨hd, hstep⟩
  · refine ⟨u, fun j hj => ?_, fun hnone => ?_, hstep⟩
    · cases hd.symm.trans hj
      exact hu
    · cases hd.symm.trans hnone
  · refine ⟨_, fun j hj => ?_, fun _ => rfl, hstep⟩
    cases hd.symm.trans hj

end Sys2Proof.Proofs
end

section
/-! Arithmetic and logic: the data and the flag each instruction of 41_arithmetic.md writes (R70 to R80). -/

namespace Sys2Proof.Machine

/-! ## Reading after the flag write and the data write (R9) -/

section
variable (s : State) (flag data : Byte)

@[simp] theorem State.reg_setFlagThenReg_same (x : Reg) : (s.setFlagThenReg flag x data).reg x = data := by
  rw [State.reg_setFlagThenReg, if_pos rfl]

theorem State.reg_VF_setFlagThenReg {x : Reg} (h : x ≠ VF) : (s.setFlagThenReg flag x data).reg VF = flag := by
  rw [State.reg_setFlagThenReg, if_neg h.symm, if_pos rfl]

end

/-! ## The flags as numbers (R11) -/

theorem flagByte_decide (p : Prop) [Decidable p] : flagByte (decide p) = if p then 1 else 0 := by
  simp only [flagByte, decide_eq_true_eq]

theorem carryFlag_eq_ite (a b : Byte) : carryFlag a b = if a.toNat + b.toNat > 255 then 1 else 0 :=
  flagByte_decide _

theorem greaterFlag_eq_ite (a b : Byte) : greaterFlag a b = if a.toNat > b.toNat then 1 else 0 :=
  flagByte_decide _

theorem toNat_flagByte (b : Bool) : (flagByte b).toNat = b.toNat := by cases b <;> rfl

theorem toNat_shiftRightFlag (a : Byte) : (shiftRightFlag a).toNat = a.toNat % 2 := by
  rw [shiftRightFlag, toNat_flagByte, BitVec.getLsbD, Nat.toNat_testBit, Nat.pow_zero, Nat.div_one]

theorem toNat_shiftLeftFlag (a : Byte) : (shiftLeftFlag a).toNat = a.toNat / 128 := by
  have hbit : (shiftLeftFlag a).toNat = a.toNat / 128 % 2 := by
    rw [shiftLeftFlag, toNat_flagByte, BitVec.getLsbD, Nat.toNat_testBit]
  omega

/-! ## The difference as a number (R77, R79) -/

/-- The difference with 256 lent before subtracting, as a natural number needs it. -/
theorem toNat_byte_sub (a b : Byte) : (a - b).toNat = (a.toNat + 256 - b.toNat) % 256 := by
  rw [BitVec.toNat_sub]; omega

end Sys2Proof.Machine

namespace Sys2Proof.Proofs
open Sys2Proof Sys2Proof.Machine

/-- Settles O25: the carry is written first, so the sum is what VF holds with x = 0xF. -/
theorem addRegistersSetsCarry : Obligations.AddRegistersSetsCarry := by
  intro s x y
  refine ⟨decodeWord_encode (i := .addRegisters x y) rfl, _, rfl, ?_, fun hx => ?_,
    SameExcept.setFlagThenReg s _ _ x⟩
  · rw [State.reg_setFlagThenReg_same, BitVec.toNat_add]
  · rw [State.reg_VF_setFlagThenReg s _ _ hx, carryFlag_eq_ite]

/-- Settles O26: each flag compares the operands in the order the difference takes them. -/
theorem subtractSetsStrictGreater : Obligations.SubtractSetsStrictGreater := by
  intro s x y
  refine ⟨⟨_, rfl, ?_, fun hx => ?_, SameExcept.setFlagThenReg s _ _ x⟩,
    _, rfl, ?_, fun hx => ?_, SameExcept.setFlagThenReg s _ _ x⟩
  · rw [State.reg_setFlagThenReg_same, toNat_byte_sub]
  · rw [State.reg_VF_setFlagThenReg s _ _ hx, greaterFlag_eq_ite]
  · rw [State.reg_setFlagThenReg_same, toNat_byte_sub]
  · rw [State.reg_VF_setFlagThenReg s _ _ hx, greaterFlag_eq_ite]

/-- Settles O27: to the right the data and the flag are quotient and remainder of `V[x]` by 2; to the left the data is
the double and the flag the quotient by 128. -/
theorem shiftsMoveOneBitOut : Obligations.ShiftsMoveOneBitOut := by
  intro s x y
  refine ⟨⟨_, rfl, ?_, fun hx => ?_, SameExcept.setFlagThenReg s _ _ x⟩,
    _, rfl, ?_, fun hx => ?_, SameExcept.setFlagThenReg s _ _ x⟩
  · rw [State.reg_setFlagThenReg_same, BitVec.toNat_ushiftRight, Nat.shiftRight_one]
  · rw [State.reg_VF_setFlagThenReg s _ _ hx, toNat_shiftRightFlag]
  · rw [State.reg_setFlagThenReg_same, BitVec.toNat_shiftLeft, Nat.shiftLeft_eq, Nat.pow_one, Nat.mul_comm]
  · rw [State.reg_VF_setFlagThenReg s _ _ hx, toNat_shiftLeftFlag]

/-- Settles O23: each of the three writes `V[x]` once, and the words are the instructions' encodings. -/
theorem loadAddImmediateAndCopy : Obligations.LoadAddImmediateAndCopy := by
  intro s x y kk
  refine ⟨decodeWord_encode (i := .loadImmediate x kk) rfl,
    ⟨_, rfl, State.reg_setReg_same s x _, SameExcept.setReg s x _⟩,
    decodeWord_encode (i := .addImmediate x kk) rfl, ⟨_, rfl, ?_, SameExcept.setReg s x _⟩,
    decodeWord_encode (i := .copy x y) rfl, ⟨_, rfl, State.reg_setReg_same s x _, SameExcept.setReg s x _⟩⟩
  rw [State.reg_setReg_same, BitVec.toNat_add]

/-- Settles O24: the machine's operation on bytes is the Boolean one at each bit. -/
theorem logicOperations : Obligations.LogicOperations := by
  intro s x y
  refine ⟨⟨_, rfl, fun j _ => ?_, SameExcept.setReg s x _⟩, ⟨_, rfl, fun j _ => ?_, SameExcept.setReg s x _⟩,
    _, rfl, fun j _ => ?_, SameExcept.setReg s x _⟩
  · rw [State.reg_setReg_same, BitVec.getLsbD_or]
  · rw [State.reg_setReg_same, BitVec.getLsbD_and]
  · rw [State.reg_setReg_same, BitVec.getLsbD_xor]

end Sys2Proof.Proofs
end

section
/-! Control flow: the two jumps and the six skips, in the execute stage and over a whole step (42_control_flow.md R85,
R86, R89 to R93; 45_input.md R110, R111). -/

namespace Sys2Proof.Machine

/-! ## The skip (R85) -/

/-- An execute stage that is a skip on a test `c` skips exactly when what `c` decides holds. -/
theorem skipsExactlyWhen_of_exec_eq_skipIf {cond : Prop} {i : Instr} {s : State} (c : Bool)
    (hexec : exec i s = .next (s.skipIf c)) (hc : c = true ↔ cond) : SkipsExactlyWhen cond i s := by
  refine ⟨_, hexec, fun h => ?_, fun h => ?_, SameExcept.skipIf s c⟩
  · have htaken : c = true := hc.mpr h
    rw [htaken]
    exact toNat_pcPlus2 s.pc
  · have hnot : c = false := Bool.eq_false_iff.mpr fun e => h (hc.mp e)
    rw [hnot]
    rfl

/-- The advance before and the timer pass after an execute stage that writes PC alone add the timers to its frame. -/
theorem SameExcept.advance_timerPass {s u : State} (h : SameExcept { pc := true } s.advance u) :
    SameExcept { pc := true, dt := true, st := true } s u.timerPass :=
  { h with pc := nofun, dt := nofun, st := nofun }

/-- A step on a skip starts from the advanced PC, so its 2 and the skip's 2 make 4 (R62, R85). -/
theorem SkipsExactlyWhen.step {cond : Prop} {i : Instr} {s : State} (h : SkipsExactlyWhen cond i s.advance) :
    StepSkipsExactlyWhen cond i s := by
  intro hd
  obtain ⟨u, hu, htaken, hnot, hframe⟩ := h
  have hadvance : s.advance.pc.toNat = (s.pc.toNat + 2) % 4096 := toNat_pcPlus2 s.pc
  refine ⟨_, step_of_decode hd hu, fun hc => ?_, fun hc => ?_, hframe.advance_timerPass⟩
  · rw [State.timerPass_pc, htaken hc, hadvance]
    omega
  · rw [State.timerPass_pc, hnot hc, hadvance]

/-! ## The key a register value names (R113) -/

theorem State.key_keyOf_eq_iff (s : State) (a : Byte) (b : Bool) :
    s.key (keyOf a) = b ↔ ∃ j : Fin 16, j.val = a.toNat % 16 ∧ s.key j = b := by
  constructor
  · exact fun h => ⟨keyOf a, keyOf_val a, h⟩
  · rintro ⟨j, hj, h⟩
    rwa [show keyOf a = j from Fin.ext ((keyOf_val a).trans hj.symm)]

/-! ## The jumps (R86, R93) -/

theorem exec_jump (nnn : Addr) (s : State) : exec (.jump nnn) s = .next { s with pc := addrWord nnn } := rfl

theorem exec_jumpWithOffset (nnn : Addr) (s : State) :
    exec (.jumpWithOffset nnn) s = .next { s with pc := offsetTarget nnn (s.reg 0) } := rfl

/-- The fetch at a PC set to any number reads there, modulo 4096 (R61). -/
theorem State.fetch16_withPC (s : State) (pc : Word) : State.fetch16 { s with pc := pc } =
    Word.ofBytes (s.readMem (pc.toNat % 4096)) (s.readMem ((pc.toNat + 1) % 4096)) :=
  State.fetch16_eq_ofBytes_mod _

end Sys2Proof.Machine

namespace Sys2Proof.Proofs
open Sys2Proof Sys2Proof.Machine

/-- Settles O33: each of the six is the one shared skip, on a test that decides its condition. -/
theorem skipsTestTheirCondition : Obligations.SkipsTestTheirCondition := by
  intro s x y kk
  refine ⟨?equalImm, ?notEqualImm, ?equalRegs, ?notEqualRegs, ?pressed, ?notPressed⟩
  case equalImm | equalRegs => exact skipsExactlyWhen_of_exec_eq_skipIf _ rfl beq_iff_eq
  case notEqualImm | notEqualRegs => exact skipsExactlyWhen_of_exec_eq_skipIf _ rfl bne_iff_ne
  case pressed => exact skipsExactlyWhen_of_exec_eq_skipIf _ rfl (s.key_keyOf_eq_iff _ true)
  case notPressed =>
    have hnot : (!s.key (keyOf (s.reg x))) = true ↔ s.key (keyOf (s.reg x)) = false := by rw [Bool.not_eq_true']
    exact skipsExactlyWhen_of_exec_eq_skipIf _ rfl (hnot.trans (s.key_keyOf_eq_iff _ false))

/-- Settles O34: the advance changes no condition, so each skip over a step is that skip from the advanced state. -/
theorem takenSkipAdvancesByFour : Obligations.TakenSkipAdvancesByFour := by
  intro s x y kk
  obtain ⟨hequalImm, hnotEqualImm, hequalRegs, hnotEqualRegs, hpressed, hnotPressed⟩ :=
    skipsTestTheirCondition s.advance x y kk
  exact ⟨hequalImm.step, hnotEqualImm.step, hequalRegs.step, hnotEqualRegs.step, hpressed.step, hnotPressed.step⟩

/-- Settles O29: the target is not reduced; the fetch and the advance that follow reduce it. -/
theorem jumpsSetPC : Obligations.JumpsSetPC := by
  intro s nnn
  have htarget := toNat_offsetTarget nnn (s.reg 0)
  refine ⟨decodeWord_encode (i := .jump nnn) rfl,
    ⟨_, exec_jump nnn s, toNat_addrWord nnn, SameExcept.withPC s _⟩,
    decodeWord_encode (i := .jumpWithOffset nnn) rfl,
    _, exec_jumpWithOffset nnn s, htarget, ?_, ?_, SameExcept.withPC s _⟩
  · rw [State.fetch16_withPC, htarget]
  · rw [State.advance_pc, toNat_pcPlus2, htarget]

end Sys2Proof.Proofs
end

section
/-! Memory access: I and the flag of add-index, and the bytes and registers the accesses through I move
(43_memory_access.md R95 to R101). -/

namespace Sys2Proof.Machine

/-! ## I and its flag (R95 to R97) -/

theorem exec_setIndex (nnn : Addr) (s : State) : exec (.setIndex nnn) s = .next { s with i := addrWord nnn } := rfl

theorem exec_setIndexToFontGlyph (x : Reg) (s : State) :
    exec (.setIndexToFontGlyph x) s = .next { s with i := glyphAddress (s.reg x) } := rfl

theorem exec_addIndex (x : Reg) (s : State) : exec (.addIndex x) s =
    .next (State.setReg { s with i := BitVec.ofNat 16 (dataAddress s.i (s.reg x).toNat) } VF
      (indexFlag s.i (s.reg x))) := rfl

theorem indexFlag_eq_ite (i : Word) (a : Byte) : indexFlag i a = if i.toNat + a.toNat > 0xFFF then 1 else 0 :=
  flagByte_decide _

/-! ## The effective address (R101) -/

/-- Memory reduces an address the way the effective address does. -/
@[simp] theorem State.readMem_dataAddress (s : State) (i : Word) (k : Nat) :
    s.readMem (dataAddress i k) = s.readMem (i.toNat + k) :=
  s.readMem_mod _

/-! ## The decimal digits stored (R98) -/

@[simp] theorem length_bcdDigits (a : Byte) : (bcdDigits a).length = 3 := rfl

/-- After store-BCD the k-th address from I on reads the k-th digit. -/
theorem readMem_of_exec_storeBCD {s t : State} {x : Reg} (ht : exec (.storeBCD x) s = .next t) (k : Nat)
    (hk : k < (bcdDigits (s.reg x)).length) : t.readMem (s.i.toNat + k) = (bcdDigits (s.reg x))[k] := by
  cases ht
  exact Memory.read_writeBytes _ s.mem s.i.toNat k hk (by simp)

section
variable (a : Byte)

theorem toNat_bcdDigits_hundreds : (bcdDigits a)[0].toNat = a.toNat / 100 := by
  have := a.isLt
  exact Nat.mod_eq_of_lt (by omega)

theorem toNat_bcdDigits_tens : (bcdDigits a)[1].toNat = a.toNat / 10 % 10 :=
  Nat.mod_eq_of_lt (by omega)

theorem toNat_bcdDigits_ones : (bcdDigits a)[2].toNat = a.toNat % 10 :=
  Nat.mod_eq_of_lt (by omega)

end

/-! ## A range of registers loaded (R100) -/

/-- After load-registers-range each register of the range holds what its address from I on read before. -/
theorem reg_of_exec_loadRegistersRange {s t : State} {x k : Reg} (hk : k.val ≤ x.val)
    (ht : exec (.loadRegistersRange x) s = .next t) : t.reg k = s.readMem (s.i.toNat + k.val) := by
  cases ht
  rw [State.reg_foldl_setReg, if_pos ((mem_regRange x k).mpr hk)]

end Sys2Proof.Machine

namespace Sys2Proof.Proofs
open Sys2Proof Sys2Proof.Machine

/-- Settles O36: VF is written after I, and both come from the operands as they were. -/
theorem addIndexWrapsAndSetsVF : Obligations.AddIndexWrapsAndSetsVF := by
  intro s x
  refine ⟨decodeWord_encode (i := .addIndex x) rfl, _, exec_addIndex x s, toNat_ofNat_dataAddress s.i _, ?_,
    { SameExcept.setReg s VF _ with index := nofun }⟩
  rw [State.reg_setReg_same, indexFlag_eq_ite]

/-- Settles O37: the run of three writes is read back digit by digit. -/
theorem storeBCDWritesThreeDigits : Obligations.StoreBCDWritesThreeDigits := by
  intro s x
  obtain ⟨t, ht, hframe⟩ := exec_frame (.storeBCD x) s
  have hread := readMem_of_exec_storeBCD ht
  refine ⟨decodeWord_encode (i := .storeBCD x) rfl, t, ht, ?_, ?_, ?_, hframe⟩
  · rw [State.readMem_dataAddress, hread 0 (by simp), toNat_bcdDigits_hundreds]
  · rw [State.readMem_dataAddress, hread 1 (by simp), toNat_bcdDigits_tens]
  · rw [State.readMem_dataAddress, hread 2 (by simp), toNat_bcdDigits_ones]

/-- Settles O38: at most 16 writes in a row do not overlap. -/
theorem storeRangeWritesRegisters : Obligations.StoreRangeWritesRegisters := by
  intro s x
  obtain ⟨t, ht, hframe⟩ := exec_frame (.storeRegistersRange x) s
  refine ⟨t, ht, fun k hk => ?_, hframe⟩
  rw [State.readMem_dataAddress, readMem_of_exec_storeRegistersRange hk ht]

/-- Settles O39: every load reads the memory and the I that the execute stage starts from. -/
theorem loadRangeReadsRegisters : Obligations.LoadRangeReadsRegisters := by
  intro s x
  obtain ⟨t, ht, hframe⟩ := exec_frame (.loadRegistersRange x) s
  refine ⟨t, ht, fun k hk => ?_, hframe⟩
  rw [State.readMem_dataAddress, reg_of_exec_loadRegistersRange hk ht]

/-- Settles O40: the store leaves I alone (D16), so the load reads the addresses the store wrote. -/
theorem loadRangeRestoresStoredRange : Obligations.LoadRangeRestoresStoredRange := by
  intro s u x
  obtain ⟨t, ht, hstored, hstore⟩ := storeRangeWritesRegisters s x
  refine ⟨t, ht, fun hi hmem => ?_⟩
  obtain ⟨w, hw, hloaded, -⟩ := loadRangeReadsRegisters u x
  refine ⟨w, hw, fun k hk => ?_⟩
  calc w.reg k = u.readMem (dataAddress u.i k.val) := hloaded k hk
    _ = t.readMem (dataAddress s.i k.val) := by rw [hmem, hi, hstore.index rfl]
    _ = s.reg k := hstored k hk

/-- Settles O35: the words are the instructions' encodings, and each instruction writes I once. -/
theorem setIndexAndFontGlyph : Obligations.SetIndexAndFontGlyph := by
  intro s nnn x
  exact ⟨decodeWord_encode (i := .setIndex nnn) rfl,
    ⟨_, exec_setIndex nnn s, toNat_addrWord nnn, SameExcept.withIndex s _⟩,
    decodeWord_encode (i := .setIndexToFontGlyph x) rfl,
    _, exec_setIndexToFontGlyph x s, toNat_glyphAddress (s.reg x), SameExcept.withIndex s _⟩

end Sys2Proof.Proofs
end

section
/-! Graphics: clear-screen, and draw sprite in the closed form of the sprite's bits (44_graphics.md R104 to R106). -/

namespace Sys2Proof.Machine

theorem exec_clearScreen (s : State) : exec .clearScreen s = .next { s with fb := Frame.blank } := rfl

theorem exec_drawSprite (x y : Reg) (n : Nat) (s : State) : exec (.drawSprite x y n) s =
    .next ((spriteDots s (s.reg x) (s.reg y) n).foldl Dot.draw (s.setReg VF 0)) :=
  execDrawSprite_eq x y n s

/-! ## The closed form and the dots (R105, R106) -/

section
variable (s : State) (cx cy : Byte) {n : Nat}

/-- A pixel is covered exactly when a dot with bit 1 falls on it: its row and column in the sprite are the only ones
that can. -/
theorem spriteCovers_iff (hn : n < 16) (py : Fin 32) (px : Fin 64) :
    spriteCovers s cx cy n py px = true ↔ ∃ d ∈ spriteDots s cx cy n, d.bit = true ∧ py = d.y ∧ px = d.x := by
  simp only [spriteCovers, Bool.and_eq_true, decide_eq_true_eq, mem_spriteDots]
  constructor
  · rintro ⟨⟨hr, hc⟩, hbit⟩
    exact ⟨_, ⟨_, hr, _, hc, rfl⟩, hbit, (pixelRow_eq_iff cy _ py (by omega)).mpr rfl,
      (pixelColumn_eq_iff cx _ px (by omega)).mpr rfl⟩
  · rintro ⟨_, ⟨r, hr, c, hc, rfl⟩, hbit, hy, hx⟩
    obtain rfl := (pixelRow_eq_iff cy r py (by omega)).mp hy
    obtain rfl := (pixelColumn_eq_iff cx c px (by omega)).mp hx
    exact ⟨⟨hr, hc⟩, hbit⟩

theorem any_spriteDots_on_pixel (hn : n < 16) (py : Fin 32) (px : Fin 64) :
    (spriteDots s cx cy n).any (fun d => d.bit && decide (py = d.y ∧ px = d.x)) = spriteCovers s cx cy n py px := by
  rw [Bool.eq_iff_iff, spriteCovers_iff s cx cy hn]
  simp only [List.any_eq_true, Bool.and_eq_true, decide_eq_true_eq]

theorem any_spriteDots_collides (hn : n < 16) :
    (spriteDots s cx cy n).any (fun d => d.bit && s.pixel d.y d.x) =
      decide (∃ py px, s.pixel py px = true ∧ spriteCovers s cx cy n py px = true) := by
  rw [Bool.eq_iff_iff, decide_eq_true_eq]
  simp only [List.any_eq_true, Bool.and_eq_true, spriteCovers_iff s cx cy hn]
  constructor
  · rintro ⟨d, hd, hbit, hpixel⟩
    exact ⟨d.y, d.x, hpixel, d, hd, hbit, rfl, rfl⟩
  · rintro ⟨_, _, hpixel, d, hd, hbit, rfl, rfl⟩
    exact ⟨d, hd, hbit, hpixel⟩

end

/-- The sprite at I is the same in two states with the same I and the same memory. -/
theorem spriteCovers_congr {s t : State} (hi : t.i = s.i) (hmem : ∀ a, t.readMem a = s.readMem a) (cx cy : Byte)
    (n : Nat) (py : Fin 32) (px : Fin 64) : spriteCovers t cx cy n py px = spriteCovers s cx cy n py px := by
  rw [spriteCovers, spriteCovers, hi, hmem]

/-! ## What a draw leaves in the pixels and in VF (R105) -/

section
variable {s t : State} {x y : Reg} {n : Nat}

theorem pixel_of_exec_drawSprite (hn : n < 16) (ht : exec (.drawSprite x y n) s = .next t) (py : Fin 32)
    (px : Fin 64) : t.pixel py px = (s.pixel py px != spriteCovers s (s.reg x) (s.reg y) n py px) := by
  cases (exec_drawSprite x y n s).symm.trans ht
  rw [Dot.pixel_foldl _ _ (spriteDots_apart _ _ _ _ hn), any_spriteDots_on_pixel _ _ _ hn, State.pixel_setReg]

theorem reg_VF_of_exec_drawSprite (hn : n < 16) (ht : exec (.drawSprite x y n) s = .next t) :
    t.reg VF =
      if ∃ py px, s.pixel py px = true ∧ spriteCovers s (s.reg x) (s.reg y) n py px = true then 1 else 0 := by
  cases (exec_drawSprite x y n s).symm.trans ht
  rw [Dot.reg_foldl _ _ (spriteDots_apart _ _ _ _ hn), State.reg_setReg_same,
    ← flagByte_decide, ← any_spriteDots_collides _ _ _ hn]
  exact BitVec.zero_or

theorem reg_VF_eq_one_iff_of_exec_drawSprite (hn : n < 16) (ht : exec (.drawSprite x y n) s = .next t) :
    t.reg VF = 1 ↔ ∃ py px, s.pixel py px = true ∧ spriteCovers s (s.reg x) (s.reg y) n py px = true := by
  rw [reg_VF_of_exec_drawSprite hn ht]
  exact Ne.ite_eq_left_iff (by decide)

end

end Sys2Proof.Machine

namespace Sys2Proof.Proofs
open Sys2Proof Sys2Proof.Machine

/-- Settles O42: a draw is a fold over dots that fall on pixels of their own, so each pixel is toggled at most once and
tested as it was before the draw. -/
theorem drawXorsSpriteAndReportsCollision : Obligations.DrawXorsSpriteAndReportsCollision := by
  intro s x y n hn
  obtain ⟨t, ht, hframe⟩ := exec_frame (.drawSprite x y n) s
  have hVF := reg_VF_of_exec_drawSprite hn ht
  refine ⟨t, ht, pixel_of_exec_drawSprite hn ht, ?_, hframe⟩
  by_cases hcollides : ∃ py px, s.pixel py px = true ∧ spriteCovers s (s.reg x) (s.reg y) n py px = true
  · exact .inl ⟨hVF.trans (if_pos hcollides), hcollides⟩
  · exact .inr ⟨hVF.trans (if_neg hcollides), fun py px hset =>
      Bool.eq_false_iff.mpr fun hcovers => hcollides ⟨py, px, hset, hcovers⟩⟩

/-- Settles O43: the second draw has the same sprite at the same place, and XOR with the same bits undoes itself; a
pixel it finds 1 and covered is one the first draw found 0 and covered. -/
theorem drawTwiceRestoresFramebuffer : Obligations.DrawTwiceRestoresFramebuffer := by
  intro s x y n hn
  obtain ⟨t, ht, hframe⟩ := exec_frame (.drawSprite x y n) s
  refine ⟨t, ht, fun hx hy => ?_⟩
  obtain ⟨u, hu, -⟩ := exec_frame (.drawSprite x y n) t
  have hsprite : ∀ py px, spriteCovers t (t.reg x) (t.reg y) n py px = spriteCovers s (s.reg x) (s.reg y) n py px := by
    rw [hx, hy]
    exact spriteCovers_congr (hframe.index rfl) (fun a => hframe.mem a List.not_mem_nil) _ _ n
  have hfirst := pixel_of_exec_drawSprite hn ht
  refine ⟨u, hu, fun py px => ?_, ?_⟩
  · rw [pixel_of_exec_drawSprite hn hu, hsprite, hfirst, Bool.bne_assoc, bne_self_eq_false, Bool.bne_false]
  · rw [reg_VF_eq_one_iff_of_exec_drawSprite hn hu]
    refine exists_congr fun py => exists_congr fun px => ?_
    rw [hsprite, hfirst]
    cases s.pixel py px <;> simp

/-- Settles O41: the word is the instruction's encoding, and the blank framebuffer is the only write. -/
theorem clearScreenZeroesPixels : Obligations.ClearScreenZeroesPixels := by
  refine ⟨decodeWord_encode (i := .clearScreen) rfl, fun s => ?_⟩
  exact ⟨_, exec_clearScreen s, fun y x => Frame.pixel_blank y x, SameExcept.withFrame s _⟩

end Sys2Proof.Proofs
end

section
/-! Input: the key wait-for-key takes (R112). -/

namespace Sys2Proof.Machine

/-- KeyPick is the lowest pressed key (D10). -/
theorem exec_waitForKey_of_lowest {s : State} (x : Reg) {j : Fin 16} (hj : s.key j = true)
    (hlow : ∀ l : Fin 16, l < j → s.key l = false) :
    exec (.waitForKey x) s = .next (s.setReg x (BitVec.ofNat 8 j.val)) := by
  rw [exec, execWaitForKey, (keyPick_eq_some s.k j).mpr ⟨hj, hlow⟩]

end Sys2Proof.Machine

namespace Sys2Proof.Proofs
open Sys2Proof Sys2Proof.Machine

/-- Settles O44: a key number fits a byte, and with no key pressed the instruction is the rewind alone. -/
theorem waitForKeyTakesLowestKey : Obligations.WaitForKeyTakesLowestKey := by
  intro s x
  constructor
  · intro j hj hlow
    refine ⟨_, exec_waitForKey_of_lowest x hj hlow, ?_, SameExcept.setReg s x _⟩
    rw [State.reg_setReg_same, BitVec.toNat_ofNat]
    omega
  · intro hnone
    have hpc : s.rewind.pc.toNat = (s.pc.toNat + 4094) % 4096 := toNat_pcMinus2 s.pc
    exact ⟨_, exec_waitForKey_of_none x hnone, by omega, by omega, SameExcept.withPC s _⟩

end Sys2Proof.Proofs
end

section
/-! Timers: the three timer instructions, and the countdown of the step that runs one (46_timers.md R116 to R118). -/

namespace Sys2Proof.Machine

theorem exec_loadDTIntoVX (x : Reg) (s : State) : exec (.loadDTIntoVX x) s = .next (s.setReg x s.dt) := rfl

/-! ## The whole step (R60, R65): the instruction sees the timers as they were, the countdown what it leaves -/

section
variable {s : State} {x : Reg}

theorem step_of_loadDTIntoVX (h : decodeWord s.fetch16 = some (.loadDTIntoVX x)) :
    step s = .next (s.advance.setReg x s.dt).timerPass :=
  step_of_decode h (exec_loadDTIntoVX x s.advance)

theorem step_of_setDTFromVX (h : decodeWord s.fetch16 = some (.setDTFromVX x)) :
    step s = .next { s.advance with dt := s.reg x }.timerPass :=
  step_of_decode h (exec_setDTFromVX x s.advance)

theorem step_of_setSTFromVX (h : decodeWord s.fetch16 = some (.setSTFromVX x)) :
    step s = .next { s.advance with st := s.reg x }.timerPass :=
  step_of_decode h (exec_setSTFromVX x s.advance)

end

end Sys2Proof.Machine

namespace Sys2Proof.Proofs
open Sys2Proof Sys2Proof.Machine

/-- Settles O46: the words are the instructions' encodings, each instruction makes one write, and the timer pass comes
after it. -/
theorem timerInstructions : Obligations.TimerInstructions := by
  intro s x
  refine ⟨decodeWord_encode (i := .loadDTIntoVX x) rfl,
    ⟨_, exec_loadDTIntoVX x s, State.reg_setReg_same s x s.dt, SameExcept.setReg s x s.dt⟩,
    fun h => ⟨_, step_of_loadDTIntoVX h, ?readsDT, State.timerPass_dt _⟩,
    decodeWord_encode (i := .setDTFromVX x) rfl,
    ⟨_, exec_setDTFromVX x s, rfl, SameExcept.withDT s _⟩,
    fun h => ⟨_, step_of_setDTFromVX h, State.timerPass_dt _⟩,
    decodeWord_encode (i := .setSTFromVX x) rfl,
    ⟨_, exec_setSTFromVX x s, rfl, SameExcept.withST s _⟩,
    fun h => ⟨_, step_of_setSTFromVX h, State.timerPass_st _⟩⟩
  case readsDT => rw [State.reg_timerPass, State.reg_setReg_same]

end Sys2Proof.Proofs
end

section
/-! Exceptions: what a step reports, what it leaves alone when it reports, and that no step reads what was reported
(60_exceptions.md R121 to R124, R137). -/

namespace Sys2Proof.Machine

/-! ## The history is read by no step (R121, R22) -/

/-- The state with another history. -/
def State.withDiag (s : State) (d : List Diag) : State := { s with diag := d }

section
variable (s : State) (d : List Diag)

theorem State.skipIf_withDiag (c : Bool) : (s.withDiag d).skipIf c = (s.skipIf c).withDiag d := by
  cases c <;> rfl

theorem Dot.draw_withDiag (p : Dot) : Dot.draw (s.withDiag d) p = (Dot.draw s p).withDiag d := by
  unfold Dot.draw State.drawPixel
  split <;> rfl

theorem Dot.foldl_withDiag (l : List Dot) : l.foldl Dot.draw (s.withDiag d) = (l.foldl Dot.draw s).withDiag d :=
  List.foldl_hom (State.withDiag · d) fun t p => Dot.draw_withDiag t d p

theorem State.foldl_setReg_withDiag (f : Reg → Byte) (l : List Reg) :
    l.foldl (fun t k => t.setReg k (f k)) (s.withDiag d) =
      (l.foldl (fun t k => t.setReg k (f k)) s).withDiag d :=
  List.foldl_hom (State.withDiag · d) fun _ _ => rfl

/-- The condition a step meets does not depend on what was reported before. -/
@[simp] theorem stepEvent_withDiag : stepEvent (s.withDiag d) = stepEvent s := rfl

/-- The execute stages of two states that differ only in their histories answer states that differ only there. -/
theorem exec_withDiag (i : Instr) :
    ∃ t d', exec i s = .next t ∧ exec i (s.withDiag d) = .next (t.withDiag d') := by
  cases i with
  | ret =>
    rcases Nat.eq_zero_or_pos s.sp.val with hsp | hsp
    · exact ⟨_, _, execRet_of_empty hsp, execRet_of_empty (s := s.withDiag d) hsp⟩
    · obtain ⟨k, hk⟩ := State.exists_slot_of_pos hsp
      exact ⟨_, d, execRet_of_pos k hk, execRet_of_pos (s := s.withDiag d) k hk⟩
  | call nnn =>
    rcases Nat.lt_or_ge s.sp.val 16 with hsp | hsp
    · exact ⟨_, d, execCall_of_lt nnn hsp, execCall_of_lt (s := s.withDiag d) nnn hsp⟩
    · have hfull : s.sp.val = 16 := by omega
      exact ⟨_, _, execCall_of_full nnn hfull, execCall_of_full (s := s.withDiag d) nnn hfull⟩
  | waitForKey x =>
    simp only [exec, execWaitForKey, State.withDiag]
    cases keyPick s.k <;> exact ⟨_, d, rfl, rfl⟩
  | drawSprite x y n =>
    refine ⟨_, d, execDrawSprite_eq x y n s, ?_⟩
    rw [← Dot.foldl_withDiag]
    exact execDrawSprite_eq x y n (s.withDiag d)
  | loadRegistersRange => exact ⟨_, d, rfl, congrArg _ (State.foldl_setReg_withDiag s d _ _)⟩
  | skipIfEqualImmediate | skipIfNotEqualImmediate | skipIfRegistersEqual | skipIfRegistersNotEqual
  | skipIfKeyPressed | skipIfKeyNotPressed => exact ⟨_, d, rfl, congrArg _ (State.skipIf_withDiag s d _)⟩
  | _ => exact ⟨_, d, rfl, rfl⟩

/-- The fetch, the advance and the timer pass read no history, and the execute stage reads none. -/
theorem step_withDiag : ∃ t d', step s = .next t ∧ step (s.withDiag d) = .next (t.withDiag d') := by
  cases hd : decodeWord s.fetch16 with
  | none => exact ⟨_, _, step_of_unknown hd, step_of_unknown (s := s.withDiag d) hd⟩
  | some i =>
    obtain ⟨u, d', hu, hu'⟩ := exec_withDiag s.advance d i
    exact ⟨_, d', step_of_decode hd hu, step_of_decode (s := s.withDiag d) hd hu'⟩

end

/-! ## The history along a step and along a run -/

section
variable {s t : State}

theorem diag_of_step (h : step s = .next t) : t.diag = (stepEvent s).toList ++ s.diag := by
  obtain ⟨u, hu, hdiag⟩ := step_diag s
  cases hu.symm.trans h
  exact hdiag

theorem diag_suffix_of_step (h : step s = .next t) : s.diag <:+ t.diag :=
  ⟨_, (diag_of_step h).symm⟩

/-- No run takes an event back. -/
theorem diag_suffix_of_run {n : Nat} (h : Sys2Proof.core.run n s = .next t) : s.diag <:+ t.diag := by
  induction n generalizing s with
  | zero => cases h; exact List.suffix_rfl
  | succ n ih =>
    obtain ⟨u, hu⟩ := step_total s
    exact (diag_suffix_of_step hu).trans (ih (run_succ n hu ▸ h))

/-! ## Quiet steps and safe runs (R137) -/

theorem quietStep_iff_diag_eq (h : step s = .next t) : quietStep s = true ↔ t.diag = s.diag := by
  rw [quietStep, h, beq_iff_eq]

theorem safeRun_succ (n : Nat) (h : step s = .next t) : safeRun (n + 1) s = (quietStep s && safeRun n t) := by
  rw [safeRun, h]

theorem quietStep_iff_stepEvent_eq_none (s : State) : quietStep s = true ↔ stepEvent s = none := by
  obtain ⟨t, h⟩ := step_total s
  rw [quietStep_iff_diag_eq h, diag_of_step h, List.append_left_eq_self, Option.toList_eq_nil_iff]

/-- A free slot for a call and a used one for a return is all an instruction needs to report nothing (R123, R124). -/
theorem execEvent_eq_none_iff (i : Instr) (s : State) :
    execEvent i s = none ↔ (∀ nnn, i = .call nnn → s.sp.val < 16) ∧ (i = .ret → 0 < s.sp.val) := by
  constructor
  · intro h
    constructor
    · rintro nnn rfl
      by_contra hfull
      rw [execEvent_call_of_full nnn (by omega)] at h
      contradiction
    · rintro rfl
      by_contra hempty
      rw [execEvent_ret_of_empty (by omega)] at h
      contradiction
  · rintro ⟨hcall, hret⟩
    refine execEvent_eq_none (fun ⟨⟨nnn, hi⟩, hfull⟩ => ?_) fun ⟨hi, hempty⟩ => (hret hi).ne' hempty
    exact (hcall nnn hi).ne hfull

theorem stepEvent_eq_none_iff (s : State) :
    stepEvent s = none ↔ ∃ i, decodeWord s.fetch16 = some i ∧ execEvent i s = none := by
  cases hd : decodeWord s.fetch16 with
  | none => simp [stepEvent_of_unknown hd]
  | some i => simp [stepEvent_of_decode hd]

/-- The history only grows, so it is at the end of a run what it was at the start exactly when it was so after every
step. -/
theorem safeRun_iff_diag_eq {n : Nat} (h : Sys2Proof.core.run n s = .next t) :
    safeRun n s = true ↔ t.diag = s.diag := by
  induction n generalizing s with
  | zero => cases h; exact iff_of_true rfl rfl
  | succ n ih =>
    obtain ⟨u, hu⟩ := step_total s
    have hrun : Sys2Proof.core.run n u = .next t := run_succ n hu ▸ h
    rw [safeRun_succ n hu, Bool.and_eq_true, quietStep_iff_diag_eq hu, ih hrun]
    constructor
    · rintro ⟨hfirst, hrest⟩
      exact hrest.trans hfirst
    · intro hsame
      have hfirst : u.diag = s.diag :=
        ((diag_suffix_of_step hu).eq_of_length_le (hsame ▸ (diag_suffix_of_run hrun).length_le)).symm
      exact ⟨hfirst, hsame.trans hfirst.symm⟩

end

/-! ## The unknown word (R122) -/

theorem decodeWord_eq_none_of_uncovered {w : Word} (h : ∀ row ∈ opcodeMap, row.covers w = false) :
    decodeWord w = none := by
  rw [← Option.not_isSome_iff_eq_none, isSome_decodeWord_iff]
  rintro ⟨row, hrow, hc⟩
  exact Bool.false_ne_true ((h row hrow).symm.trans hc)

end Sys2Proof.Machine

namespace Sys2Proof.Proofs
open Sys2Proof Sys2Proof.Machine

/-- Settles O18: the two steps answer alike but for the histories, and each history grows by the event of the condition
met, which is the same in both. -/
theorem diagnosticsNeverFeedBack : Obligations.DiagnosticsNeverFeedBack := by
  intro s d
  obtain ⟨t, d', ht, ht'⟩ := step_withDiag s d
  have hd' : d' = (stepEvent s).toList ++ d := diag_of_step ht'
  exact ⟨t, (stepEvent s).toList, ht, diag_of_step ht, hd' ▸ ht'⟩

/-- Settles O7: an uncovered word does not decode, so the step is the advance, the report and the timer pass. -/
theorem unknownWordIsReported : Obligations.UnknownWordIsReported := by
  intro s h
  refine ⟨_, step_of_unknown (decodeWord_eq_none_of_uncovered h), toNat_pcPlus2 s.pc, (ite_not _ _ _).symm,
    (ite_not _ _ _).symm, rfl, ?_⟩
  exact { SameExcept.raise s.advance .unknownOpcode s.fetch16 with pc := nofun, dt := nofun, st := nofun }

/-- Settles O9: a step is quiet exactly when it meets no condition, and the conditions are the unknown word and the two
of the stack. -/
theorem quietStepMeetsNoCondition : Obligations.QuietStepMeetsNoCondition := by
  intro s
  simp only [quietStep_iff_stepEvent_eq_none, stepEvent_eq_none_iff, execEvent_eq_none_iff]

/-- Settles O11: every run ends in a state, whose history is that at the start exactly when the run was safe. -/
theorem safeRunIsUnchangedHistory : Obligations.SafeRunIsUnchangedHistory := by
  intro n s
  obtain ⟨t, ht⟩ := run_total n s
  rw [safeRun_iff_diag_eq ht]
  constructor
  · exact fun h => ⟨t, ht, h⟩
  · rintro ⟨u, hu, h⟩
    cases ht.symm.trans hu
    exact h

/-- Settles O31: with no slot to push to or to pop from, the execute stage is the report of the instruction's word. -/
theorem stackFaultsAreReportedNoOps : Obligations.StackFaultsAreReportedNoOps := fun s nnn =>
  ⟨fun hfull => ⟨_, execCall_of_full nnn hfull, rfl, SameExcept.raise s _ _⟩,
    fun hempty => ⟨_, execRet_of_empty hempty, rfl, SameExcept.raise s _ _⟩⟩

end Sys2Proof.Proofs
end
